-- ==== Sys2Proof/Syntax.lean ====
section
/-!
DEFINITION. The commands of the engine: one constructor for each row of spec/opcode_table.json
(30_encoding.md rule R71). A command has no operand but its two flags (rules R72, R73): every other operand is a
named register.
-/

namespace Sys2Proof

/-- The eleven commands (30_encoding.md rule R71). `ks` is flag `KS`: false, the key is `KEY`; true, it is `SUBKEY`.
`ni` is flag `NI`: false, the input is the view at `SRC`; true, the input is absent (rule R72). Only a command that
allows a flag carries it, so every term stands for one of the 17 legal command words (rule R78). -/
inductive Instr where
  /-- `SCINIT`: build the 16-word state into `X` (R108). -/
  | scinit (ks : Bool)
  /-- `SCPERM`: the 20-round permutation on `X` (R109). -/
  | scperm
  /-- `KSBLK`: one keystream block into `OB` (R110). -/
  | ksblk (ks : Bool)
  /-- `XSUBKEY`: derive the subkey into `SUBKEY` (R152). -/
  | xsubkey
  /-- `SXOR`: Salsa20 keystream XOR over a view (R136). -/
  | sxor (ks ni : Bool)
  /-- `XSXOR`: XSalsa20 keystream XOR over a view (R153). -/
  | xsxor (ni : Bool)
  /-- `PCLAMP`: split and clamp `PK` into `R`, `S` (R180). -/
  | pclamp
  /-- `PMAC`: Poly1305 tag of a view into `TAG` (R181). -/
  | pmac
  /-- `TVFY`: compare `TAG` with `TREF` (R182). -/
  | tvfy
  /-- `SEAL`: secretbox seal of a view (R212). -/
  | sealBox
  /-- `OPEN`: secretbox open of a view (R216). -/
  | openBox
deriving DecidableEq, Repr

end Sys2Proof
end

