-- ==== Sys2Proof/Word.lean ====
section
/-!
DEFINITION. The hardware's units of data: the byte, the 32-bit word, and the byte array of a fixed length
(00_scope.md rules R9, R10), with the two wrapping word sums of rule R11.
-/

namespace Sys2Proof

/-- A byte: 8 unsigned bits (00_scope.md rule R9). -/
abbrev Byte := BitVec 8

/-- A word: 32 unsigned bits (00_scope.md rule R9). -/
abbrev Word := BitVec 32

/-- A byte array of `n` bytes, byte 0 first (00_scope.md rule R10). -/
abbrev Bytes (n : Nat) := Vector Byte n

/-- `add32(a, b) = (a + b) mod 2^32` (00_scope.md rule R11): it wraps silently, there is no carry. -/
abbrev add32 (a b : Word) : Word := a + b

/-- `sub32(a, b) = (a − b) mod 2^32` (00_scope.md rule R11). -/
abbrev sub32 (a b : Word) : Word := a - b

/-- `zeros(n)`: `n` bytes 0x00 (00_scope.md rule R10). -/
abbrev zeroBytes (n : Nat) : Bytes n := Vector.replicate n 0

end Sys2Proof
end

