-- ==== Sys2Proof/Decode.lean ====
section
/-!
DEFINITION. The command word `CW` (30_encoding.md rules R70 to R75): its fields, the decoder (total on all 32-bit
words, rejecting by name) and, after it, the encoder.
-/

namespace Sys2Proof

/-- Field `op`, bits 7:0 (30_encoding.md rule R70). -/
def cwOp (cw : Word) : Byte := cw.extractLsb' 0 8

/-- Flag `KS`, bit 8 (30_encoding.md rule R70). -/
def cwKs (cw : Word) : Bool := cw.getLsbD 8

/-- Flag `NI`, bit 9 (30_encoding.md rule R70). -/
def cwNi (cw : Word) : Bool := cw.getLsbD 9

/-- The reserved bits 31:10, which must be 0 (30_encoding.md rule R70). -/
def cwReserved (cw : Word) : BitVec 22 := cw.extractLsb' 10 22

/-- Why a command word is illegal (30_encoding.md rule R74). All four end the same way, with `E_ILLCMD`. -/
inductive Reject where
  /-- A reserved bit of 31:10 is 1. -/
  | reservedBits
  /-- `op` is 0x00 or greater than 0x0B. -/
  | noSuchOp
  /-- `KS` is 1 and the command is not `SCINIT`, `KSBLK` or `SXOR`. -/
  | ksNotAllowed
  /-- `NI` is 1 and the command is not `SXOR` or `XSXOR`. -/
  | niNotAllowed
deriving DecidableEq, Repr

/-- The commands that allow flag `KS`: `op` in {0x01, 0x03, 0x05} (30_encoding.md rules R72, R75). -/
def ksAllowed (op : Byte) : Bool := op == 0x01 || op == 0x03 || op == 0x05

/-- The commands that allow flag `NI`: `op` in {0x05, 0x06} (30_encoding.md rules R72, R75). -/
def niAllowed (op : Byte) : Bool := op == 0x05 || op == 0x06

/-- The command of an `op` value, with its flags (30_encoding.md rule R71); none for 0x00 and 0x0C to 0xFF. -/
def commandOf (op : Byte) (ks ni : Bool) : Option Instr :=
  if op = 0x01 then some (.scinit ks)
  else if op = 0x02 then some .scperm
  else if op = 0x03 then some (.ksblk ks)
  else if op = 0x04 then some .xsubkey
  else if op = 0x05 then some (.sxor ks ni)
  else if op = 0x06 then some (.xsxor ni)
  else if op = 0x07 then some .pclamp
  else if op = 0x08 then some .pmac
  else if op = 0x09 then some .tvfy
  else if op = 0x0A then some .sealBox
  else if op = 0x0B then some .openBox
  else none

/-- The decode procedure (30_encoding.md rule R75), in its order. -/
def decode (cw : Word) : Except Reject Instr :=
  if cwReserved cw ≠ 0 then .error .reservedBits
  else
    match commandOf (cwOp cw) (cwKs cw) (cwNi cw) with
    | none => .error .noSuchOp
    | some i =>
      if cwKs cw && !ksAllowed (cwOp cw) then .error .ksNotAllowed
      else if cwNi cw && !niAllowed (cwOp cw) then .error .niNotAllowed
      else .ok i

/-- The operation code of a command (30_encoding.md rule R71). -/
def Instr.opcode : Instr → Byte
  | .scinit _ => 0x01
  | .scperm => 0x02
  | .ksblk _ => 0x03
  | .xsubkey => 0x04
  | .sxor _ _ => 0x05
  | .xsxor _ => 0x06
  | .pclamp => 0x07
  | .pmac => 0x08
  | .tvfy => 0x09
  | .sealBox => 0x0A
  | .openBox => 0x0B

/-- Bit `KS` of a command's word (30_encoding.md rules R70, R72): 0 where the command does not allow it. -/
def Instr.ksBit : Instr → Bool
  | .scinit ks => ks
  | .scperm => false
  | .ksblk ks => ks
  | .xsubkey => false
  | .sxor ks _ => ks
  | .xsxor _ => false
  | .pclamp => false
  | .pmac => false
  | .tvfy => false
  | .sealBox => false
  | .openBox => false

/-- Bit `NI` of a command's word (30_encoding.md rules R70, R72): 0 where the command does not allow it. -/
def Instr.niBit : Instr → Bool
  | .scinit _ => false
  | .scperm => false
  | .ksblk _ => false
  | .xsubkey => false
  | .sxor _ ni => ni
  | .xsxor ni => ni
  | .pclamp => false
  | .pmac => false
  | .tvfy => false
  | .sealBox => false
  | .openBox => false

/-- The command word of a command: reserved bits 0, then `NI`, `KS` and `op` (30_encoding.md rules R70, R78). -/
def encode (i : Instr) : Word :=
  i.opcode.setWidth 32 ||| ((BitVec.ofBool i.ksBit).setWidth 32 <<< 8)
    ||| ((BitVec.ofBool i.niBit).setWidth 32 <<< 9)

/-- The command that the decoder reads from a table row's bits: the 32-bit word whose low `nbits` bits are those of
`w` and whose other bits are 0. A command is always 32 bits long (30_encoding.md rule R76), so more than 32 bits are
no command word. -/
def decodeTableWord (nbits w : Nat) : Option Instr :=
  if nbits ≤ 32 then (decode (BitVec.ofNat 32 (w % 2 ^ nbits))).toOption else none

end Sys2Proof
end

