-- ==== Sys2Proof/Machine/Bytes.lean ====
section
/-!
DEFINITION. Byte order and word helpers (00_scope.md rules R10 to R14, 20_memory.md rule R52). Everything is
little-endian, and the order is decided here and nowhere else.
-/

namespace Sys2Proof.Machine

/-- `rotl32(a, n)`: left rotation by `n` bits, `0 < n < 32` (00_scope.md rule R11). -/
def rotl32 (a : Word) (n : Nat) : Word := (a <<< n) ||| (a >>> (32 - n))

/-- `ld32(a, o)`: the word of the four bytes from index `o` on, byte `o` in bits 7:0 (00_scope.md rule R12). -/
def ld32 {n : Nat} (a : Bytes n) (o : Nat) (h : o + 4 ≤ n := by omega) : Word :=
  a[o].setWidth 32 ||| (a[o + 1].setWidth 32 <<< 8) ||| (a[o + 2].setWidth 32 <<< 16)
    ||| (a[o + 3].setWidth 32 <<< 24)

/-- `st32(w) = [w[7:0], w[15:8], w[23:16], w[31:24]]` (00_scope.md rule R13). -/
def st32 (w : Word) : Bytes 4 :=
  #v[w.extractLsb' 0 8, w.extractLsb' 8 8, w.extractLsb' 16 8, w.extractLsb' 24 8]

/-- `le_int(a) = sum over i of a[i] · 2^(8·i)`; 0 for the empty array (00_scope.md rule R14). -/
def leInt : List Byte → Nat
  | [] => 0
  | b :: bs => b.toNat + 256 * leInt bs

/-- The `n` low bytes of `v`, least significant first. -/
def leDigits : Nat → Nat → List Byte
  | 0, _ => []
  | n + 1, v => BitVec.ofNat 8 v :: leDigits n (v / 256)

/-- There are as many digits as were asked for. -/
@[simp] theorem leDigits_length (n v : Nat) : (leDigits n v).length = n := by
  induction n generalizing v with
  | zero => rfl
  | succ n ih => simp [leDigits, ih]

/-- `le_bytes(n, v)`, the `n`-byte array whose `le_int` is `v`, for `v < 2^(8n)` (00_scope.md rule R14). -/
def leBytes (n v : Nat) : Bytes n := ⟨(leDigits n v).toArray, by simp⟩

/-- The sub-array `a[i..i+k)` (00_scope.md rule R10). -/
def slice {n : Nat} (a : Bytes n) (i k : Nat) (h : i + k ≤ n := by omega) : Bytes k :=
  ⟨((a.toList.drop i).take k).toArray, by simp; omega⟩

/-- The first `n` bytes of a list, as an array. Every use has at least `n` bytes; the zeros that would make up a
shorter list to `n` are never reached (DEDUCED, notes/assumptions/13.md, safe). -/
def firstBytes (n : Nat) (l : List Byte) : Bytes n :=
  ⟨((l ++ List.replicate n 0).take n).toArray, by simp⟩

/-- Sixteen words stored one after another, each with `st32`: 64 bytes (40_salsa20_core.md rule R106), and the same
for any number of words. -/
def storeWords {n : Nat} (ws : Vector Word n) : Bytes (4 * n) :=
  ⟨(ws.toList.flatMap fun w => (st32 w).toList).toArray, by
    simp [List.length_flatMap, List.map_const', Nat.mul_comm]⟩

/-- `A[o..o+4) <- st32(v)` (10_state.md rule R35). -/
def putWord {n : Nat} (a : Bytes n) (o : Nat) (v : Word) (h : o + 4 ≤ n := by omega) : Bytes n :=
  (((a.set o (st32 v)[0]).set (o + 1) (st32 v)[1]).set (o + 2) (st32 v)[2]).set (o + 3) (st32 v)[3]

/-- Byte-wise exclusive or of two byte arrays of equal length. -/
def xorBytes (a b : List Byte) : List Byte := List.zipWith (· ^^^ ·) a b

end Sys2Proof.Machine
end

