-- ==== Sys2Proof/Machine/Flags.lean ====
section
/-!
DEFINITION. The flags of the hardware: the fields of `STATUS` (10_state.md rule R23), the result codes
(60_exceptions.md rule R240) and the value `STATUS` takes when a command completes (rule R248). There are no
arithmetic condition codes.
-/

namespace Sys2Proof.Machine

/-- The result codes (60_exceptions.md rule R240). -/
inductive Code where
  /-- 0: the command completed. -/
  | ok
  /-- 1: `LEN < 32` on `SEAL` or `OPEN` (R241). -/
  | eShort
  /-- 2: a tag compare found a difference, on `OPEN` or `TVFY` (R242). -/
  | eAuth
  /-- 3: the command word is illegal (R243). -/
  | eIllcmd
  /-- 4: a view reaches past `DM_BYTES` (R244). -/
  | eRange
  /-- 5: the two views overlap without being identical (R245). -/
  | eOvlp
deriving DecidableEq, Repr

/-- The number of a code (60_exceptions.md rule R240); 6 to 15 are the number of none. -/
def Code.bits : Code → BitVec 4
  | .ok => 0
  | .eShort => 1
  | .eAuth => 2
  | .eIllcmd => 3
  | .eRange => 4
  | .eOvlp => 5

/-- `STATUS.CODE`, bits 3:0 (10_state.md rule R23). -/
def statusCode (w : Word) : BitVec 4 := w.extractLsb' 0 4

/-- `STATUS.DONE`, bit 4 (10_state.md rule R23). -/
def statusDone (w : Word) : Bool := w.getLsbD 4

/-- `STATUS.ERRS`, bit 5 (10_state.md rule R23). -/
def statusErrs (w : Word) : Bool := w.getLsbD 5

/-- `STATUS[7:6]`, reserved (10_state.md rule R23). -/
def statusLowReserved (w : Word) : BitVec 2 := w.extractLsb' 6 2

/-- `STATUS.LASTOP`, bits 15:8 (10_state.md rule R23). -/
def statusLastop (w : Word) : Byte := w.extractLsb' 8 8

/-- `STATUS[31:16]`, reserved (10_state.md rule R23). -/
def statusHighReserved (w : Word) : BitVec 16 := w.extractLsb' 16 16

/-- A `STATUS` word from its fields, the reserved bits 0 (10_state.md rule R23). -/
def packStatus (code : BitVec 4) (done errs : Bool) (lastop : Byte) : Word :=
  code.setWidth 32 ||| ((BitVec.ofBool done).setWidth 32 <<< 4) ||| ((BitVec.ofBool errs).setWidth 32 <<< 5)
    ||| (lastop.setWidth 32 <<< 8)

/-- The value of `STATUS` once a command whose word has the low byte `op` completes with `code`, `old` being its value
before (60_exceptions.md rule R248): `ERRS` is sticky. -/
def completedStatus (old : Word) (code : Code) (op : Byte) : Word :=
  packStatus code.bits true (statusErrs old || code != .ok) op

end Sys2Proof.Machine
end

