-- ==== Sys2Proof/Config.lean ====
section
/-!
DEFINITION. What an implementation fixes. The sizes of 00_scope.md rule R7 are constants of the hardware and stand
in the types of the registers and functions; `DM_BYTES` (rule R8) is the one parameter the spec leaves open.
-/

namespace Sys2Proof

/-- How far `DM_BYTES` lies above its least value 64. The spec leaves the size of the data memory open
(00_scope.md rule R8: "natural number", 64 ≤ DM_BYTES ≤ 2^32; 92_eei_decisions.md D2: "OPEN"), so this constant has
no body: no proof can see its value. DESIGN CHOICE (notes/assumptions/2.md), safe. -/
opaque Config.dmBytesAbove64 : Fin (2 ^ 32 - 64 + 1)

/-- `DM_BYTES`: the size in bytes of the data memory that the machine is built with (00_scope.md rule R8). -/
def Config.dmBytes : Nat := Config.dmBytesAbove64.val + 64

end Sys2Proof
end

