-- ==== Sys2Proof/Machine/Access.lean ====
section
/-!
DEFINITION. What the host can do to the block, one access at a time (00_scope.md rule R5, 10_state.md rule R35,
20_memory.md rule R65, 70_reset_and_hazards.md rule R270), and which accesses are accesses of this block at all.
-/

namespace Sys2Proof.Machine

/-- One action of the host. The host's script (30_encoding.md rule R77) is a list of these, carried out in order. -/
inductive HostAccess where
  /-- `RegWrite(off, v)` (10_state.md rule R35). At offset 0x000 it issues the command word `v` (rule R24). -/
  | regWrite (off : Nat) (v : Word)
  /-- `RegRead(off)` (10_state.md rule R35). -/
  | regRead (off : Nat)
  /-- The host writes `bytes` to `DM` from address `addr` on (20_memory.md rule R65). -/
  | memWrite (addr : Nat) (bytes : List Byte)
  /-- The host reads `n` bytes of `DM` from address `addr` on (20_memory.md rule R65). -/
  | memRead (addr n : Nat)
  /-- The host or the platform asserts the one reset input (70_reset_and_hazards.md rule R270). It comes between
  commands (DEDUCED, notes/assumptions/11.md). -/
  | assertReset
deriving DecidableEq, Repr

/-- What an access hands back to the host: nothing, the word of a `RegRead`, or the bytes of a `DM` read. -/
inductive Reply where
  /-- The access returns nothing. -/
  | nothing
  /-- The value of a `RegRead`. -/
  | word (v : Word)
  /-- The bytes of a host read of `DM`. -/
  | bytes (bs : List Byte)
deriving DecidableEq, Repr

/-- A register-space access is one of this block when `off` is a multiple of 4 and `off < 0x1000`
(10_state.md rule R35). -/
def regOffsetOk (off : Nat) : Bool := off % 4 == 0 && decide (off < 0x1000)

/-- `n` bytes from address `addr` on lie inside a `DM` of `size` bytes: `addr + n ≤ DM_BYTES`, in exact natural
numbers, with no wrap (20_memory.md rules R55, R65). -/
def dmSpanOk (size addr n : Nat) : Bool := decide (addr + n ≤ size)

end Sys2Proof.Machine
end

