-- ==== Sys2Proof/Machine/Memory.lean ====
section
/-!
DEFINITION. The data memory `DM` (20_memory.md rules R50, R65): an array of `DM_BYTES` bytes, held as a list of
(address, byte) cells in one canonical form, with its two primitives.
-/

namespace Sys2Proof.Machine

/-- `DM` (20_memory.md rule R50). `size` is `DM_BYTES`; `cells` lists the bytes that differ from `unlistedByte`. -/
structure Memory where
  /-- `DM_BYTES`: the addresses are 0 to `size − 1`. -/
  size : Nat
  /-- The listed bytes, addresses strictly rising. -/
  cells : List Host.Cell
deriving DecidableEq, Repr

/-- What an address that `cells` does not list reads as. DESIGN CHOICE (notes/assumptions/3.md), unsafe for a
statement about the one memory of `State.reset`: the spec assumes nothing of `DM` at the start of a run
(70_reset_and_hazards.md rule R272), and any contents can be listed. -/
def unlistedByte : Byte := 0

/-- The first cell of an address. -/
def findCell (cells : List Host.Cell) (a : Nat) : Option Byte :=
  match cells with
  | [] => none
  | c :: cs => if c.1 = a then some c.2 else findCell cs a

/-- The cells without those of address `a`. -/
def dropCell (cells : List Host.Cell) (a : Nat) : List Host.Cell := cells.filter fun c => c.1 != a

/-- The cells with a cell put in before the first one of a higher address. -/
def placeCell (cells : List Host.Cell) (a : Nat) (b : Byte) : List Host.Cell :=
  match cells with
  | [] => [(a, b)]
  | c :: cs => if a < c.1 then (a, b) :: c :: cs else c :: placeCell cs a b

/-- `DM[a]`. -/
def Memory.readByte (m : Memory) (a : Nat) : Byte := (findCell m.cells a).getD unlistedByte

/-- `DM[a] <- b`, keeping the canonical form: writing what an unlisted address reads as removes the cell. -/
def Memory.writeByte (m : Memory) (a : Nat) (b : Byte) : Memory :=
  { m with cells := if b = unlistedByte then dropCell m.cells a else placeCell (dropCell m.cells a) a b }

/-- `MemRead(addr, n)` = `[DM[addr], …, DM[addr + n − 1]]` (20_memory.md rule R65). -/
def Memory.readBytes (m : Memory) (addr : Nat) : Nat → List Byte
  | 0 => []
  | n + 1 => m.readByte addr :: m.readBytes (addr + 1) n

/-- `MemWrite(addr, n, v)`: `DM[addr + i] <- v[i]` for each byte of `v` (20_memory.md rule R65). -/
def Memory.writeBytes (m : Memory) (addr : Nat) : List Byte → Memory
  | [] => m
  | b :: bs => (m.writeByte addr b).writeBytes (addr + 1) bs

/-- The addresses of a cell list rise strictly. -/
def cellsRise : List Host.Cell → Bool
  | [] => true
  | [_] => true
  | c :: d :: cs => decide (c.1 < d.1) && cellsRise (d :: cs)

/-- The canonical form: `DM_BYTES` is a size the spec allows (00_scope.md rule R8), the addresses rise strictly and
lie inside `DM`, and no cell holds what an unlisted address reads as. -/
def Memory.wf (m : Memory) : Bool :=
  decide (64 ≤ m.size) && decide (m.size ≤ 2 ^ 32) && cellsRise m.cells
    && m.cells.all fun c => decide (c.1 < m.size) && c.2 != unlistedByte

end Sys2Proof.Machine
end

