-- ==== Sys2Proof/Machine/State.lean ====
section
/-!
DEFINITION. The state of the machine (10_state.md rules R20 to R40), the reasons it can stop, and its reset state
(70_reset_and_hazards.md rules R270 to R272).
-/

namespace Sys2Proof.Machine

/-- Everything the spec gives the machine: the registers of 10_state.md rule R20 and the data memory (rule R37).
`CMD` has no field because it stores nothing (rule R24), and there is no program counter (rule R22). The last two
fields are the model's own: what the host is about to do, and what its latest access handed back. -/
structure State where
  /-- `STATUS` (R23). -/
  status : Word
  /-- `SRC` (R25). -/
  src : Word
  /-- `DST` (R25). -/
  dst : Word
  /-- `LEN` (R25). -/
  len : Word
  /-- `KEY` (R26). -/
  key : Bytes 32
  /-- `NONCE` (R27). -/
  nonce : Bytes 24
  /-- `BLK` (R28). -/
  blk : Bytes 16
  /-- `TREF` (R29). -/
  tref : Bytes 16
  /-- `PK` (R30). -/
  pk : Bytes 32
  /-- `SUBKEY` (R31). -/
  subkey : Bytes 32
  /-- `X`, the words `x[0]` to `x[15]` (R21). -/
  x : Vector Word 16
  /-- `OB` (R32). -/
  ob : Bytes 64
  /-- `R` (R33). -/
  rReg : Bytes 16
  /-- `S` (R33). -/
  sReg : Bytes 16
  /-- `TAG` (R34). -/
  tag : Bytes 16
  /-- `DM` (R37). -/
  dm : Memory
  /-- The model's own: the accesses the host has still to make, the next one first (the host's script,
  30_encoding.md rule R77). The block does not hold it; the step takes its next access from it. DESIGN CHOICE
  (notes/assumptions/1.md), safe. -/
  script : List HostAccess
  /-- The model's own: what the host's latest access handed back to it. The block never reads it. DESIGN CHOICE
  (notes/assumptions/1.md), safe. -/
  reply : Reply
deriving DecidableEq, Repr

/-- Why the machine stops with a fault. -/
inductive Fault where
  /-- Raised by a host access to `DM` that reaches an address that does not exist, `addr + n > DM_BYTES`
  (20_memory.md rule R65, 93_implementation_defined.md V8). Safe: the spec gives such an access no effect, and the
  machine stops with nothing written (DESIGN CHOICE, notes/assumptions/5.md). No command raises it:
  a command's views are checked first (rule R55). -/
  | noSuchDmAddress (addr n : Nat)
deriving DecidableEq, Repr

/-- Why the machine refuses to go on. -/
inductive Refusal where
  /-- Raised by `exec`'s arm of a command that has no meaning yet. Safe. No arm raises it in this model. -/
  | notModelled (mnemonic : String)
  /-- Raised by a register access whose offset is not a multiple of 4 or is not below 0x1000: "not an access of this
  block: the model refuses it" (10_state.md rule R35). Safe: the spec gives it no effect. -/
  | notARegisterAccess (off : Nat)
deriving DecidableEq, Repr

/-- The block just reset, beside a `DM` that the host or the platform has filled with `dm`: every register is zero
(10_state.md rule R40, 70_reset_and_hazards.md rules R271, R272: "the model takes the initial `DM` as an argument"),
and the host is about to carry out `script`. -/
def State.resetWith (dm : Memory) (script : List HostAccess) : State where
  status := 0
  src := 0
  dst := 0
  len := 0
  key := zeroBytes 32
  nonce := zeroBytes 24
  blk := zeroBytes 16
  tref := zeroBytes 16
  pk := zeroBytes 32
  subkey := zeroBytes 32
  x := Vector.replicate 16 0
  ob := zeroBytes 64
  rReg := zeroBytes 16
  sReg := zeroBytes 16
  tag := zeroBytes 16
  dm := dm
  script := script
  reply := .nothing

/-- The machine right after reset (70_reset_and_hazards.md rules R270 to R272): every register zero, a `DM` of
`DM_BYTES` bytes with nothing listed, and no access of the host pending. -/
def State.reset : State := State.resetWith ⟨Config.dmBytes, []⟩ []

end Sys2Proof.Machine
end

