-- ==== Sys2Proof/Machine/Ops.lean ====
section
/-!
DEFINITION. The operations shared by the meanings: the register writes of the commands, the completion of a command
(which is all that "taking a failure" is on this hardware, 60_exceptions.md rules R248, R249), the register space
(10_state.md rules R35, R36) and reset (70_reset_and_hazards.md rule R270).
-/

namespace Sys2Proof.Machine

/-- What a command, an access or a step answers. -/
abbrev Result := Host.Outcome State Fault Refusal

/-! ### Register writes of the commands (10_state.md rule R41) -/

/-- `X <- v`. -/
def State.setX (s : State) (v : Vector Word 16) : State := { s with x := v }

/-- `OB <- v`. -/
def State.setOb (s : State) (v : Bytes 64) : State := { s with ob := v }

/-- `SUBKEY <- v`. -/
def State.setSubkey (s : State) (v : Bytes 32) : State := { s with subkey := v }

/-- `R <- r` and `S <- m`, always written together (10_state.md rule R33). -/
def State.setMacKey (s : State) (r m : Bytes 16) : State := { s with rReg := r, sReg := m }

/-- `TAG <- v`. -/
def State.setTag (s : State) (v : Bytes 16) : State := { s with tag := v }

/-- `MemWrite(addr, len(v), v)` on the machine's `DM` (20_memory.md rule R65). -/
def State.memWrite (s : State) (addr : Nat) (v : List Byte) : State := { s with dm := s.dm.writeBytes addr v }

/-- `STATUS` takes the completion bookkeeping of a command word with low byte `op` (60_exceptions.md rule R248). -/
def State.finish (s : State) (op : Byte) (code : Code) : State :=
  { s with status := completedStatus s.status code op }

/-! ### Completion of a command -/

/-- `if c: raise code` (00_scope.md rule R15): the command ends at once with that code. -/
def raiseIf (c : Bool) (code : Code) : Except Code Unit := if c then .error code else .ok ()

/-- The end of every command (60_exceptions.md rule R248). A command's body, run from `s`, answers the state it leaves
or the code it raises. A code that is not `OK` is a result signal, not a transfer of control: nothing is saved, no
mode changes, nothing but `STATUS` changes, and the host goes on with its next access (rule R249). -/
def complete (op : Byte) (s : State) (body : Except Code State) : Result :=
  match body with
  | .ok t => .next (t.finish op .ok)
  | .error code => .next (s.finish op code)

/-! ### The register space -/

/-- What stands at an aligned offset of the register space: a register, or one word of a byte-array or word register
(10_state.md rule R35). -/
inductive RegWord where
  /-- `CMD` -/
  | cmd
  /-- `STATUS` -/
  | status
  /-- `SRC` -/
  | src
  /-- `DST` -/
  | dst
  /-- `LEN` -/
  | len
  /-- `KEY[4j..4j+4)` -/
  | key (j : Fin 8)
  /-- `NONCE[4j..4j+4)` -/
  | nonce (j : Fin 6)
  /-- `BLK[4j..4j+4)` -/
  | blk (j : Fin 4)
  /-- `TREF[4j..4j+4)` -/
  | tref (j : Fin 4)
  /-- `PK[4j..4j+4)` -/
  | pk (j : Fin 8)
  /-- `SUBKEY[4j..4j+4)` -/
  | subkey (j : Fin 8)
  /-- `x[i]` -/
  | x (i : Fin 16)
  /-- `OB[4j..4j+4)` -/
  | ob (j : Fin 16)
  /-- `R[4j..4j+4)` -/
  | r (j : Fin 4)
  /-- `S[4j..4j+4)` -/
  | s (j : Fin 4)
  /-- `TAG[4j..4j+4)` -/
  | tag (j : Fin 4)
  /-- A reserved offset. -/
  | reserved
deriving DecidableEq, Repr

/-- The register map (10_state.md rule R35), for an aligned offset below 0x1000. -/
def regAt (off : Nat) : RegWord :=
  if off = 0x000 then .cmd
  else if off = 0x004 then .status
  else if off = 0x008 then .src
  else if off = 0x00C then .dst
  else if off = 0x010 then .len
  else if h : 0x020 ≤ off ∧ off < 0x040 then .key ⟨(off - 0x020) / 4, by omega⟩
  else if h : 0x040 ≤ off ∧ off < 0x058 then .nonce ⟨(off - 0x040) / 4, by omega⟩
  else if h : 0x060 ≤ off ∧ off < 0x070 then .blk ⟨(off - 0x060) / 4, by omega⟩
  else if h : 0x070 ≤ off ∧ off < 0x080 then .tref ⟨(off - 0x070) / 4, by omega⟩
  else if h : 0x080 ≤ off ∧ off < 0x0A0 then .pk ⟨(off - 0x080) / 4, by omega⟩
  else if h : 0x0A0 ≤ off ∧ off < 0x0C0 then .subkey ⟨(off - 0x0A0) / 4, by omega⟩
  else if h : 0x0C0 ≤ off ∧ off < 0x100 then .x ⟨(off - 0x0C0) / 4, by omega⟩
  else if h : 0x100 ≤ off ∧ off < 0x140 then .ob ⟨(off - 0x100) / 4, by omega⟩
  else if h : 0x140 ≤ off ∧ off < 0x150 then .r ⟨(off - 0x140) / 4, by omega⟩
  else if h : 0x150 ≤ off ∧ off < 0x160 then .s ⟨(off - 0x150) / 4, by omega⟩
  else if h : 0x160 ≤ off ∧ off < 0x170 then .tag ⟨(off - 0x160) / 4, by omega⟩
  else .reserved

/-- `RegRead` at a place of the map: byte-array registers are packed little-endian; `CMD` and the reserved offsets
read 0 (10_state.md rules R35, R36). -/
def State.readReg (s : State) : RegWord → Word
  | .cmd => 0
  | .status => s.status
  | .src => s.src
  | .dst => s.dst
  | .len => s.len
  | .key j => ld32 s.key (4 * j.val)
  | .nonce j => ld32 s.nonce (4 * j.val)
  | .blk j => ld32 s.blk (4 * j.val)
  | .tref j => ld32 s.tref (4 * j.val)
  | .pk j => ld32 s.pk (4 * j.val)
  | .subkey j => ld32 s.subkey (4 * j.val)
  | .x i => s.x[i]
  | .ob j => ld32 s.ob (4 * j.val)
  | .r j => ld32 s.rReg (4 * j.val)
  | .s j => ld32 s.sReg (4 * j.val)
  | .tag j => ld32 s.tag (4 * j.val)
  | .reserved => 0

/-- `RegWrite` of data at a place of the map: a read/write register takes the word; a host-read-only register and a
reserved offset change nothing (10_state.md rules R35, R36). A write to `CMD` stores nothing (rule R24): the command
it issues is run by Machine/HostPort.lean. -/
def State.writeReg (s : State) (v : Word) : RegWord → State
  | .cmd => s
  | .status => s
  | .src => { s with src := v }
  | .dst => { s with dst := v }
  | .len => { s with len := v }
  | .key j => { s with key := putWord s.key (4 * j.val) v }
  | .nonce j => { s with nonce := putWord s.nonce (4 * j.val) v }
  | .blk j => { s with blk := putWord s.blk (4 * j.val) v }
  | .tref j => { s with tref := putWord s.tref (4 * j.val) v }
  | .pk j => { s with pk := putWord s.pk (4 * j.val) v }
  | .subkey _ => s
  | .x i => { s with x := s.x.set i v }
  | .ob _ => s
  | .r _ => s
  | .s _ => s
  | .tag _ => s
  | .reserved => s

/-! ### The host's side and reset -/

/-- The host's next access leaves its script, and what an earlier access handed back is gone. -/
def State.takeAccess (s : State) (rest : List HostAccess) : State := { s with script := rest, reply := .nothing }

/-- What an access hands back to the host. -/
def State.answer (s : State) (r : Reply) : State := { s with reply := r }

/-- Asserting the reset input: every register takes its reset value, `DM` is untouched, and the host goes on with its
script (70_reset_and_hazards.md rule R270). -/
def State.resetRegs (s : State) : State := State.resetWith s.dm s.script

end Sys2Proof.Machine
end

