-- ==== Sys2Proof/Machine/Operands.lean ====
section
/-!
DEFINITION. The operands of the commands (30_encoding.md rules R72, R73): the key that flag `KS` selects, the input
and output views with their range and overlap checks (20_memory.md rules R54 to R57).
-/

namespace Sys2Proof.Machine

/-- The key of a command with flag `KS`: `KEY` if 0, `SUBKEY` if 1 (30_encoding.md rule R72). -/
def State.selectedKey (s : State) (ks : Bool) : Bytes 32 := if ks then s.subkey else s.key

/-- The input view `[SRC, SRC + LEN)` fits in `DM`, in exact natural numbers (20_memory.md rule R55). -/
def State.inputFits (s : State) : Bool := dmSpanOk s.dm.size s.src.toNat s.len.toNat

/-- The output view `[DST, DST + LEN)` fits in `DM` (20_memory.md rule R55). -/
def State.outputFits (s : State) : Bool := dmSpanOk s.dm.size s.dst.toNat s.len.toNat

/-- The two views overlap without being the same view (20_memory.md rule R56). -/
def State.viewsClash (s : State) : Bool :=
  decide (0 < s.len.toNat) && s.src != s.dst
    && decide (s.src.toNat < s.dst.toNat + s.len.toNat) && decide (s.dst.toNat < s.src.toNat + s.len.toNat)

/-- `MemRead(SRC, LEN)`: the bytes of the input view (20_memory.md rules R54, R57). -/
def State.inputView (s : State) : List Byte := s.dm.readBytes s.src.toNat s.len.toNat

/-- `MemWrite(DST, LEN, out)`: the output view takes `out` (20_memory.md rules R54, R57). -/
def State.writeOutput (s : State) (out : List Byte) : State := s.memWrite s.dst.toNat out

/-- The checks of `SXOR` and `XSXOR` before any access to `DM`: with `NI` = 1 there is no input view, so `SRC` is not
checked and nothing can overlap (41_salsa20_stream.md rule R136, 42_xsalsa20.md rule R153). -/
def State.streamChecks (s : State) (ni : Bool) : Except Code Unit := do
  raiseIf (!ni && !s.inputFits) .eRange
  raiseIf (!s.outputFits) .eRange
  raiseIf (!ni && s.viewsClash) .eOvlp

/-- The input of `SXOR` and `XSXOR`: the input view, or absent with `NI` = 1 (30_encoding.md rule R72). -/
def State.streamInput (s : State) (ni : Bool) : Option (List Byte) := if ni then none else some s.inputView

/-- The checks of `SEAL` and `OPEN`, in their order: the length before anything else, then the ranges, then the
overlap (44_secretbox.md rules R212, R216, 60_exceptions.md rule R247). -/
def State.boxChecks (s : State) : Except Code Unit := do
  raiseIf (decide (s.len.toNat < 32)) .eShort
  raiseIf (!s.inputFits || !s.outputFits) .eRange
  raiseIf s.viewsClash .eOvlp

end Sys2Proof.Machine
end

