-- ==== Sys2Proof/Machine/Poly1305.lean ====
section
/-!
DEFINITION. Poly1305 (43_poly1305.md rules R170 to R176) and the constant-time compare (rule R179), as pure functions
over natural numbers; the limb form of rule R177 stands in Machine/Poly1305Limbs.lean.
-/

namespace Sys2Proof.Machine

/-- The modulus `P1305 = 2^130 − 5` (43_poly1305.md rule R171). -/
def p1305 : Nat := 2 ^ 130 - 5

/-- The first half of a one-time key, `rb = pk[0..16)` (43_poly1305.md rule R170). -/
def keyHalfR (pk : Bytes 32) : Bytes 16 := slice pk 0 16

/-- The second half of a one-time key, `sb = pk[16..32)` (43_poly1305.md rule R170). -/
def keyHalfS (pk : Bytes 32) : Bytes 16 := slice pk 16 16

/-- `clamp(rb)`: the top four bits of bytes 3, 7, 11, 15 and the low two bits of bytes 4, 8, 12 are cleared
(43_poly1305.md rule R172). -/
def clamp (rb : Bytes 16) : Bytes 16 :=
  #v[rb[0], rb[1], rb[2], rb[3] &&& 0x0f,
     rb[4] &&& 0xfc, rb[5], rb[6], rb[7] &&& 0x0f,
     rb[8] &&& 0xfc, rb[9], rb[10], rb[11] &&& 0x0f,
     rb[12] &&& 0xfc, rb[13], rb[14], rb[15] &&& 0x0f]

/-- The value of a chunk: its bytes, least significant first, and one byte 0x01 right after its last byte, for a full
chunk too (43_poly1305.md rule R173, 90_conflicts.md C1). -/
def chunkValue (chunk : List Byte) : Nat := leInt chunk + 2 ^ (8 * chunk.length)

/-- How many chunks a message of `n` bytes has: `ceil(n / 16)` (43_poly1305.md rule R173). -/
def chunkCount (n : Nat) : Nat := (n + 15) / 16

/-- `q` chunks of 16 bytes (the last one may be short) go into the accumulator, each by
`h <- ((h + c_k) * r) mod P1305` (43_poly1305.md rule R174). -/
def accumulate (r : Nat) : Nat → Nat → List Byte → Nat
  | 0, h, _ => h
  | q + 1, h, msg => accumulate r q (((h + chunkValue (msg.take 16)) * r) % p1305) (msg.drop 16)

/-- `poly1305(msg, pk)` (43_poly1305.md rule R176). -/
def poly1305 (msg : List Byte) (pk : Bytes 32) : Bytes 16 :=
  let r := leInt (clamp (keyHalfR pk)).toList
  let s := leInt (keyHalfS pk).toList
  let h := accumulate r (chunkCount msg.length) 0 msg
  leBytes 16 ((h + s) % 2 ^ 128)

/-- `verify16(a, b)`: all sixteen byte differences are OR-ed into one byte, which is tested once
(43_poly1305.md rule R179). -/
def verify16 (a b : Bytes 16) : Bool :=
  (xorBytes a.toList b.toList).foldl (· ||| ·) 0 == 0

end Sys2Proof.Machine
end

