-- ==== Sys2Proof/Machine/Salsa20.lean ====
section
/-!
DEFINITION. The Salsa20 core (40_salsa20_core.md rules R100 to R107): the state build, the quarter-round, the round,
the 20-round permutation and its two output modes, as pure functions.
-/

namespace Sys2Proof.Machine

/-- The 16 words of the permutation state (40_salsa20_core.md rule R101). -/
abbrev Words16 := Vector Word 16

/-- `SIGMA`: the ASCII bytes of "expand 32-byte k" (40_salsa20_core.md rule R100, 10_state.md rule R39). -/
def sigma : Bytes 16 :=
  #v[0x65, 0x78, 0x70, 0x61, 0x6e, 0x64, 0x20, 0x33, 0x32, 0x2d, 0x62, 0x79, 0x74, 0x65, 0x20, 0x6b]

/-- `build_state(blk, key)` (40_salsa20_core.md rule R101), in the order of its table: the constant at 0, 5, 10, 15,
key bytes [0,16) at 1 to 4, the block at 6 to 9, key bytes [16,32) at 11 to 14. -/
def buildState (blk : Bytes 16) (key : Bytes 32) : Words16 :=
  #v[ld32 sigma 0, ld32 key 0, ld32 key 4, ld32 key 8,
     ld32 key 12, ld32 sigma 4, ld32 blk 0, ld32 blk 4,
     ld32 blk 8, ld32 blk 12, ld32 sigma 8, ld32 key 16,
     ld32 key 20, ld32 key 24, ld32 key 28, ld32 sigma 12]

/-- Four words `t[0..4)`, the operand and the result of a quarter-round (40_salsa20_core.md rule R102). -/
structure Quad where
  /-- `t[0]` -/
  t0 : Word
  /-- `t[1]` -/
  t1 : Word
  /-- `t[2]` -/
  t2 : Word
  /-- `t[3]` -/
  t3 : Word
deriving DecidableEq, Repr

/-- `t[m]` (40_salsa20_core.md rule R102). -/
def Quad.word (t : Quad) (m : Fin 4) : Word :=
  match m with
  | 0 => t.t0
  | 1 => t.t1
  | 2 => t.t2
  | 3 => t.t3

/-- `quarter(t)`: four sequential updates, each using the words already updated (40_salsa20_core.md rule R102). -/
def quarter (t : Quad) : Quad :=
  let n1 := t.t1 ^^^ rotl32 (add32 t.t0 t.t3) 7
  let n2 := t.t2 ^^^ rotl32 (add32 n1 t.t0) 9
  let n3 := t.t3 ^^^ rotl32 (add32 n2 n1) 13
  let n0 := t.t0 ^^^ rotl32 (add32 n3 n2) 18
  ⟨n0, n1, n2, n3⟩

/-- `round(x)`, the round (40_salsa20_core.md rule R103, the table it writes out): quarter-round `j` reads
`x[(5j + 4m) mod 16]` as `t[m]` and writes `t[m]` to `w[4j + ((j + m) mod 4)]`. -/
def salsaRound (x : Words16) : Words16 :=
  let q0 := quarter ⟨x[0], x[4], x[8], x[12]⟩
  let q1 := quarter ⟨x[5], x[9], x[13], x[1]⟩
  let q2 := quarter ⟨x[10], x[14], x[2], x[6]⟩
  let q3 := quarter ⟨x[15], x[3], x[7], x[11]⟩
  #v[q0.t0, q0.t1, q0.t2, q0.t3,
     q1.t3, q1.t0, q1.t1, q1.t2,
     q2.t2, q2.t3, q2.t0, q2.t1,
     q3.t1, q3.t2, q3.t3, q3.t0]

/-- The round applied `k` times: `x_0 = x`, `x_(k+1) = round(x_k)` (40_salsa20_core.md rule R104). -/
def rounds : Nat → Words16 → Words16
  | 0, x => x
  | k + 1, x => salsaRound (rounds k x)

/-- `perm20(x)`: 20 rounds, whatever the data (40_salsa20_core.md rule R104). -/
def perm20 (x : Words16) : Words16 := rounds 20 x

/-- The canonical in-place quarter-round `QR(a, b, c, d)` on a sixteen-word array (40_salsa20_core.md rule R105). -/
def quarterAt (a b c d : Fin 16) (x : Words16) : Words16 :=
  let x := x.set b (x[b] ^^^ rotl32 (add32 x[a] x[d]) 7)
  let x := x.set c (x[c] ^^^ rotl32 (add32 x[b] x[a]) 9)
  let x := x.set d (x[d] ^^^ rotl32 (add32 x[c] x[b]) 13)
  x.set a (x[a] ^^^ rotl32 (add32 x[d] x[c]) 18)

/-- The canonical column round (40_salsa20_core.md rule R105). -/
def columnRound (x : Words16) : Words16 :=
  quarterAt 15 3 7 11 (quarterAt 10 14 2 6 (quarterAt 5 9 13 1 (quarterAt 0 4 8 12 x)))

/-- The canonical row round (40_salsa20_core.md rule R105). -/
def rowRound (x : Words16) : Words16 :=
  quarterAt 15 12 13 14 (quarterAt 10 11 8 9 (quarterAt 5 6 7 4 (quarterAt 0 1 2 3 x)))

/-- `doubleround(x)`: the column round, then the row round (40_salsa20_core.md rule R105). The machine computes with
`salsaRound`; this is the form the published descriptions use. -/
def doubleRound (x : Words16) : Words16 := rowRound (columnRound x)

/-- `doubleround` applied `k` times (40_salsa20_core.md rule R105). -/
def doubleRounds : Nat → Words16 → Words16
  | 0, x => x
  | k + 1, x => doubleRound (doubleRounds k x)

/-- `core_stream(blk, key)`: the permuted state plus the original state, all 16 words
(40_salsa20_core.md rule R106). -/
def coreStream (blk : Bytes 16) (key : Bytes 32) : Bytes 64 :=
  let y := buildState blk key
  let z := perm20 y
  storeWords (Vector.zipWith add32 z y)

/-- `core_subkey(blk, key)`: from the permuted plus original sum the constant- and input-derived words are subtracted
back, and words 0, 5, 10, 15, 6, 7, 8, 9 are emitted (40_salsa20_core.md rule R107). -/
def coreSubkey (blk : Bytes 16) (key : Bytes 32) : Bytes 32 :=
  let y := buildState blk key
  let z := perm20 y
  let s := Vector.zipWith add32 z y
  storeWords #v[
    sub32 s[0] (ld32 sigma 0), sub32 s[5] (ld32 sigma 4), sub32 s[10] (ld32 sigma 8), sub32 s[15] (ld32 sigma 12),
    sub32 s[6] (ld32 blk 0), sub32 s[7] (ld32 blk 4), sub32 s[8] (ld32 blk 8), sub32 s[9] (ld32 blk 12)]

end Sys2Proof.Machine
end

