-- ==== Sys2Proof/Machine/Stream.lean ====
section
/-!
DEFINITION. The Salsa20 keystream and its XOR, and the XSalsa20 wrapper (41_salsa20_stream.md rules R130 to R132,
42_xsalsa20.md rules R150, R151), as pure functions. Lengths are values of the 32-bit register `LEN`, so the 64-bit
block counter cannot wrap (41_salsa20_stream.md rule R133) and no wrap value is chosen (93_implementation_defined.md
V1; DEDUCED, notes/assumptions/7.md, safe).
-/

namespace Sys2Proof.Machine

/-- The core input block of the stream: `sn ‖ le_bytes(8, ctr)` (41_salsa20_stream.md rule R130). -/
def streamBlock (sn : Bytes 8) (ctr : Nat) : Bytes 16 := sn ++ leBytes 8 ctr

/-- `count` keystream blocks one after another, with block counters `ctr`, `ctr + 1`, … (41_salsa20_stream.md rule
R131). -/
def streamBlocks (sn : Bytes 8) (key : Bytes 32) (ctr : Nat) : Nat → List Byte
  | 0 => []
  | count + 1 => (coreStream (streamBlock sn ctr) key).toList ++ streamBlocks sn key (ctr + 1) count

/-- How many blocks a stream of `n` bytes takes: `ceil(n / 64)` (41_salsa20_stream.md rule R131). -/
def blockCount (n : Nat) : Nat := (n + 63) / 64

/-- `keystream(sn, key, n)`: the first `n` bytes of the stream whose block counter starts at 0
(41_salsa20_stream.md rule R131, 90_conflicts.md C3). -/
def keystream (sn : Bytes 8) (key : Bytes 32) (n : Word) : List Byte :=
  (streamBlocks sn key 0 (blockCount n.toNat)).take n.toNat

/-- `stream_xor(inp, n, sn, key)`; `none` is the absent input (41_salsa20_stream.md rule R132). -/
def streamXor (inp : Option (List Byte)) (n : Word) (sn : Bytes 8) (key : Bytes 32) : List Byte :=
  match inp with
  | none => keystream sn key n
  | some m => xorBytes m (keystream sn key n)

/-- `subkey(nonce, key) = core_subkey(nonce[0..16), key)` (42_xsalsa20.md rule R150). -/
def deriveSubkey (nonce : Bytes 24) (key : Bytes 32) : Bytes 32 := coreSubkey (slice nonce 0 16) key

/-- The stream nonce of a 24-byte nonce: its bytes [16,24) (42_xsalsa20.md rule R151, 41_salsa20_stream.md rule
R136). -/
def streamNonce (nonce : Bytes 24) : Bytes 8 := slice nonce 16 8

/-- `xsalsa20_xor(inp, n, nonce, key)` (42_xsalsa20.md rule R151). -/
def xsalsa20Xor (inp : Option (List Byte)) (n : Word) (nonce : Bytes 24) (key : Bytes 32) : List Byte :=
  streamXor inp n (streamNonce nonce) (deriveSubkey nonce key)

end Sys2Proof.Machine
end

