-- ==== Sys2Proof/Machine/Secretbox.lean ====
section
/-!
DEFINITION. Secretbox seal and open (44_secretbox.md rules R210, R211, R214, R215), as pure functions: a result code
on failure, the output bytes on success.
-/

namespace Sys2Proof.Machine

/-- `PAD_BYTES`: the leading zero bytes of a padded plaintext, and the least length of seal and open
(00_scope.md rule R7, 44_secretbox.md rule R210). -/
def padBytes : Nat := 32

/-- `seal(inp, nonce, key)` for an input of `n` bytes (44_secretbox.md rule R211). The one-time key is the first 32
bytes of the XOR result, whatever the input's padding holds (rule R213). -/
def secretboxSeal (inp : List Byte) (n : Word) (nonce : Bytes 24) (key : Bytes 32) : Except Code (List Byte) :=
  if n.toNat < padBytes then .error .eShort
  else
    let c := xsalsa20Xor (some inp) n nonce key
    let otk := firstBytes 32 c
    let tag := poly1305 (c.drop 32) otk
    .ok ((zeroBytes 16).toList ++ tag.toList ++ c.drop 32)

/-- `open(inp, nonce, key)` for an input of `n` bytes (44_secretbox.md rules R214, R215): the tag is verified before
any byte is decrypted, and input bytes [0,16) are never read. -/
def secretboxOpen (inp : List Byte) (n : Word) (nonce : Bytes 24) (key : Bytes 32) : Except Code (List Byte) :=
  if n.toNat < padBytes then .error .eShort
  else
    let otk := firstBytes 32 (xsalsa20Xor none 32 nonce key)
    let tag := poly1305 (inp.drop 32) otk
    if verify16 tag (firstBytes 16 (inp.drop 16)) then
      .ok ((zeroBytes 32).toList ++ (xsalsa20Xor (some inp) n nonce key).drop 32)
    else .error .eAuth

end Sys2Proof.Machine
end

