-- ==== Sys2Proof/Machine/BoxCommands.lean ====
section
/-!
DEFINITION. The meanings of the secretbox commands `SEAL` and `OPEN` (44_secretbox.md rules R212, R216). Every failure
leaves `DM` and every register but `STATUS` as they were (rule R217).
-/

namespace Sys2Proof.Machine

/-- `SEAL` (44_secretbox.md rule R212). -/
def execSeal (s : State) : Result :=
  complete Instr.sealBox.opcode s do
    s.boxChecks
    let out ← secretboxSeal s.inputView s.len s.nonce s.key
    return s.writeOutput out

/-- `OPEN` (44_secretbox.md rule R216). -/
def execOpen (s : State) : Result :=
  complete Instr.openBox.opcode s do
    s.boxChecks
    let out ← secretboxOpen s.inputView s.len s.nonce s.key
    return s.writeOutput out

end Sys2Proof.Machine
end

