-- ==== Sys2Proof/Machine/CoreCommands.lean ====
section
/-!
DEFINITION. The meanings of the commands of the Salsa20 core and of the subkey derivation: `SCINIT`, `SCPERM`,
`KSBLK` (40_salsa20_core.md rules R108 to R110) and `XSUBKEY` (42_xsalsa20.md rule R152). They touch registers only.
-/

namespace Sys2Proof.Machine

/-- `SCINIT` (40_salsa20_core.md rule R108): `X <- build_state(BLK, k)`. -/
def execScinit (ks : Bool) (s : State) : Result :=
  complete (Instr.scinit ks).opcode s (.ok (s.setX (buildState s.blk (s.selectedKey ks))))

/-- `SCPERM` (40_salsa20_core.md rule R109): `X <- perm20(X)`, with no feed-forward. -/
def execScperm (s : State) : Result :=
  complete Instr.scperm.opcode s (.ok (s.setX (perm20 s.x)))

/-- `KSBLK` (40_salsa20_core.md rule R110): `OB <- core_stream(BLK, k)`; `X` is neither read nor written. -/
def execKsblk (ks : Bool) (s : State) : Result :=
  complete (Instr.ksblk ks).opcode s (.ok (s.setOb (coreStream s.blk (s.selectedKey ks))))

/-- `XSUBKEY` (42_xsalsa20.md rule R152): `SUBKEY <- core_subkey(NONCE[0..16), KEY)`. -/
def execXsubkey (s : State) : Result :=
  complete Instr.xsubkey.opcode s (.ok (s.setSubkey (deriveSubkey s.nonce s.key)))

end Sys2Proof.Machine
end

