-- ==== Sys2Proof/Machine/PolyCommands.lean ====
section
/-!
DEFINITION. The meanings of the Poly1305 commands `PCLAMP`, `PMAC`, `TVFY` (43_poly1305.md rules R180 to R182).
-/

namespace Sys2Proof.Machine

/-- `PCLAMP` (43_poly1305.md rule R180): `R <- clamp(PK[0..16))`, `S <- PK[16..32)`. -/
def execPclamp (s : State) : Result :=
  complete Instr.pclamp.opcode s (.ok (s.setMacKey (clamp (keyHalfR s.pk)) (keyHalfS s.pk)))

/-- `PMAC` (43_poly1305.md rule R181): the tag of the input view; `DST` is ignored, there is no least length, and
`R`, `S` are recomputed from `PK`. -/
def execPmac (s : State) : Result :=
  complete Instr.pmac.opcode s do
    raiseIf (!s.inputFits) .eRange
    return (s.setMacKey (clamp (keyHalfR s.pk)) (keyHalfS s.pk)).setTag (poly1305 s.inputView s.pk)

/-- `TVFY` (43_poly1305.md rule R182): `OK` if `TAG` equals `TREF`, else `E_AUTH`; nothing but `STATUS` is written. -/
def execTvfy (s : State) : Result :=
  complete Instr.tvfy.opcode s do
    raiseIf (!verify16 s.tag s.tref) .eAuth
    return s

end Sys2Proof.Machine
end

