-- ==== Sys2Proof/Machine/StreamCommands.lean ====
section
/-!
DEFINITION. The meanings of the stream commands `SXOR` (41_salsa20_stream.md rule R136) and `XSXOR`
(42_xsalsa20.md rule R153). They touch `DM` only.
-/

namespace Sys2Proof.Machine

/-- `SXOR` (41_salsa20_stream.md rule R136): Salsa20 keystream XOR, the stream nonce being `NONCE[16..24)`. -/
def execSxor (ks ni : Bool) (s : State) : Result :=
  complete (Instr.sxor ks ni).opcode s do
    s.streamChecks ni
    return s.writeOutput (streamXor (s.streamInput ni) s.len (streamNonce s.nonce) (s.selectedKey ks))

/-- `XSXOR` (42_xsalsa20.md rule R153): XSalsa20 keystream XOR; the subkey is transient and `SUBKEY` keeps its
value. -/
def execXsxor (ni : Bool) (s : State) : Result :=
  complete (Instr.xsxor ni).opcode s do
    s.streamChecks ni
    return s.writeOutput (xsalsa20Xor (s.streamInput ni) s.len s.nonce s.key)

end Sys2Proof.Machine
end

