-- ==== Sys2Proof/Machine/Dispatch.lean ====
section
/-! DEFINITION. What each command does: one arm per constructor of Instr, each one call of its meaning. -/

namespace Sys2Proof.Machine

def exec (i : Instr) (s : State) : Host.Outcome State Fault Refusal :=
  match i with
  | .scinit ks => Sys2Proof.Machine.execScinit ks s
  | .scperm => Sys2Proof.Machine.execScperm s
  | .ksblk ks => Sys2Proof.Machine.execKsblk ks s
  | .xsubkey => Sys2Proof.Machine.execXsubkey s
  | .sxor ks ni => Sys2Proof.Machine.execSxor ks ni s
  | .xsxor ni => Sys2Proof.Machine.execXsxor ni s
  | .pclamp => Sys2Proof.Machine.execPclamp s
  | .pmac => Sys2Proof.Machine.execPmac s
  | .tvfy => Sys2Proof.Machine.execTvfy s
  | .sealBox => Sys2Proof.Machine.execSeal s
  | .openBox => Sys2Proof.Machine.execOpen s

end Sys2Proof.Machine
end

