-- ==== Sys2Proof/Machine/HostPort.lean ====
section
/-!
DEFINITION. The host's port: what each access of the host does (10_state.md rules R24, R35, R36, 20_memory.md rule
R65, 30_encoding.md rule R75, 70_reset_and_hazards.md rule R270).
-/

namespace Sys2Proof.Machine

/-- `RegWrite(0x000, cw)` (30_encoding.md rule R75): the word is decoded; an illegal one raises `E_ILLCMD` before any
register or memory operand is read (60_exceptions.md rule R243), a legal one is run to completion. -/
def runCommand (cw : Word) (s : State) : Result :=
  match decode cw with
  | .error _ => complete (cwOp cw) s (.error .eIllcmd)
  | .ok i => exec i s

/-- `RegWrite(off, v)` at an accepted offset: a write to `CMD` issues a command (10_state.md rule R24). -/
def acceptRegWrite (off : Nat) (v : Word) (s : State) : Result :=
  match regAt off with
  | .cmd => runCommand v s
  | place => .next (s.writeReg v place)

/-- One access of the host. -/
def perform (a : HostAccess) (s : State) : Result :=
  match a with
  | .regWrite off v => if regOffsetOk off then acceptRegWrite off v s else .refused (.notARegisterAccess off)
  | .regRead off =>
    if regOffsetOk off then .next (s.answer (.word (s.readReg (regAt off)))) else .refused (.notARegisterAccess off)
  | .memWrite addr bs =>
    if dmSpanOk s.dm.size addr bs.length then .next (s.memWrite addr bs)
    else .fault (.noSuchDmAddress addr bs.length)
  | .memRead addr n =>
    if dmSpanOk s.dm.size addr n then .next (s.answer (.bytes (s.dm.readBytes addr n)))
    else .fault (.noSuchDmAddress addr n)
  | .assertReset => .next s.resetRegs

end Sys2Proof.Machine
end

