-- ==== Sys2Proof/Machine/Step.lean ====
section
/-!
DEFINITION. One step of the machine: the host's next access, carried out whole (00_scope.md rule R5, 20_memory.md
rules R59, R61). The engine has no step of its own, so with no access pending nothing happens.
-/

namespace Sys2Proof.Machine

/-- The step: the host's next access leaves its script and is carried out to completion before the one after it
(00_scope.md rule R5). With an empty script the machine stays as it is: DESIGN CHOICE
(notes/assumptions/4.md), safe. -/
def step (s : State) : Host.Outcome State Fault Refusal :=
  match s.script with
  | [] => .next s
  | a :: rest => perform a (s.takeAccess rest)

/-- The host is about to write the command word whose low `nbits` bits are those of `w` to `CMD`: the engine fetches
nothing (20_memory.md rule R63), so a command stands where the host's next access stands (DESIGN
CHOICE, notes/assumptions/6.md, safe). -/
def State.withFetchWord (s : State) (nbits w : Nat) : State :=
  { s with script := .regWrite 0x000 (BitVec.ofNat 32 (w % 2 ^ nbits)) :: s.script }

end Sys2Proof.Machine
end

