-- ==== Sys2Proof/Machine/HostScript.lean ====
section
/-!
DEFINITION. The host script syntax (30_encoding.md rule R77): each script line as the host accesses it stands for.
It is notation for `State.script` and gives the machine nothing.
-/

namespace Sys2Proof.Machine

/-- The scalar registers that `SETW` names (30_encoding.md rule R77). -/
inductive ScalarReg where
  /-- `SRC` -/
  | src
  /-- `DST` -/
  | dst
  /-- `LEN` -/
  | len
deriving DecidableEq, Repr

/-- Their offsets (10_state.md rule R35). -/
def ScalarReg.offset : ScalarReg → Nat
  | .src => 0x008
  | .dst => 0x00C
  | .len => 0x010

/-- The byte-array registers that `SETB` and `GETB` name (30_encoding.md rule R77). -/
inductive ArrayReg where
  /-- `KEY` -/
  | key
  /-- `NONCE` -/
  | nonce
  /-- `BLK` -/
  | blk
  /-- `TREF` -/
  | tref
  /-- `PK` -/
  | pk
  /-- `SUBKEY` -/
  | subkey
  /-- `OB` -/
  | ob
  /-- `R` -/
  | r
  /-- `S` -/
  | s
  /-- `TAG` -/
  | tag
deriving DecidableEq, Repr

/-- Their first offsets (10_state.md rule R35). -/
def ArrayReg.base : ArrayReg → Nat
  | .key => 0x020
  | .nonce => 0x040
  | .blk => 0x060
  | .tref => 0x070
  | .pk => 0x080
  | .subkey => 0x0A0
  | .ob => 0x100
  | .r => 0x140
  | .s => 0x150
  | .tag => 0x160

/-- Their sizes in bytes (10_state.md rule R20). -/
def ArrayReg.size : ArrayReg → Nat
  | .key => 32
  | .nonce => 24
  | .blk => 16
  | .tref => 16
  | .pk => 32
  | .subkey => 32
  | .ob => 64
  | .r => 16
  | .s => 16
  | .tag => 16

/-- `<MNEMONIC>`, with its `.KS` and `.NI`: the write of the command's word to `CMD`. -/
def Script.command (i : Instr) : List HostAccess := [.regWrite 0x000 (encode i)]

/-- `SETW <REG>, <v>`. -/
def Script.setw (reg : ScalarReg) (v : Word) : List HostAccess := [.regWrite reg.offset v]

/-- `SETB <REG>, <hex bytes>`: one write for each four bytes, in increasing offset. -/
def Script.setb {n : Nat} (reg : ArrayReg) (bytes : Bytes (4 * n)) : List HostAccess :=
  (List.finRange n).map fun j => .regWrite (reg.base + 4 * j.val) (ld32 bytes (4 * j.val))

/-- `GETB <REG>`: one read for each four bytes, in increasing offset. -/
def Script.getb (reg : ArrayReg) : List HostAccess :=
  (List.range (reg.size / 4)).map fun j => .regRead (reg.base + 4 * j)

/-- `SETX <i>, <v>`. -/
def Script.setx (i : Fin 16) (v : Word) : List HostAccess := [.regWrite (0x0C0 + 4 * i.val) v]

/-- `GETX <i>`. -/
def Script.getx (i : Fin 16) : List HostAccess := [.regRead (0x0C0 + 4 * i.val)]

/-- `STATUS?`. -/
def Script.status : List HostAccess := [.regRead 0x004]

/-- `KSTREAM` and `KSTREAM.KS`: the raw Salsa20 keystream into the output view. -/
def Script.kstream (ks : Bool) : List HostAccess := Script.command (.sxor ks true)

/-- `XKSTREAM`: the raw XSalsa20 keystream into the output view. -/
def Script.xkstream : List HostAccess := Script.command (.xsxor true)

/-- `seal(out, in, n)`. -/
def Script.sealCall (out inp n : Word) : List HostAccess :=
  Script.setw .src inp ++ Script.setw .dst out ++ Script.setw .len n ++ Script.command .sealBox ++ Script.status

/-- `open(out, in, n)`. -/
def Script.openCall (out inp n : Word) : List HostAccess :=
  Script.setw .src inp ++ Script.setw .dst out ++ Script.setw .len n ++ Script.command .openBox ++ Script.status

end Sys2Proof.Machine
end

