-- ==== Sys2Proof/Machine/Poly1305Limbs.lean ====
section
/-!
DEFINITION. The 17-limb form of Poly1305 (43_poly1305.md rule R177, informative): 8-bit limbs in 32-bit cells, with
the branch-free final reduction of rule R178. No command calls it (DESIGN CHOICE, notes/assumptions/10.md, safe): the
commands compute with the integer form of rule R176, which is the normative one, and a statement says that the two agree.
-/

namespace Sys2Proof.Machine

/-- Limb `i`, in a 32-bit cell. -/
def limbAt (l : List Word) (i : Nat) : Word := l.getD i 0

/-- `add1305(h, c)`, with the carry `u` coming in (43_poly1305.md rule R177). -/
def addLimbs (u : Word) : List Word → List Word → List Word
  | h :: hs, c :: cs => ((u + h + c) &&& 255) :: addLimbs ((u + h + c) >>> 8) hs cs
  | _, _ => []

/-- The product of `h` and `r`, limb 17 and above folded back by the factor 320 (43_poly1305.md rule R177). -/
def mulLimbs (h r : List Word) : List Word :=
  (List.range 17).map fun i =>
    (List.range 17).foldl
      (fun acc j => acc + limbAt h j * (if j ≤ i then limbAt r (i - j) else 320 * limbAt r (i + 17 - j))) 0

/-- One carry pass over a list of limbs, the carry `u` coming in; answers the carry out and the limbs. -/
def carryLimbs (u : Word) : List Word → Word × List Word
  | [] => (u, [])
  | h :: hs => ((carryLimbs ((u + h) >>> 8) hs).1, ((u + h) &&& 255) :: (carryLimbs ((u + h) >>> 8) hs).2)

/-- The two carry passes after a multiplication, the bits above 2^130 folded back by the factor 5
(43_poly1305.md rule R177). -/
def squeezeLimbs (x : List Word) : List Word :=
  let low := carryLimbs 0 (x.take 16)
  let u := low.1 + limbAt x 16
  let again := carryLimbs (5 * (u >>> 2)) low.2
  again.2 ++ [again.1 + (u &&& 3)]

/-- The 17 limbs of a chunk with its byte 0x01 (43_poly1305.md rule R177). -/
def chunkLimbs (chunk : List Byte) : List Word :=
  ((chunk.map fun b : Byte => b.setWidth 32) ++ 1 :: List.replicate 16 0).take 17

/-- `q` chunks go into the limb accumulator (43_poly1305.md rule R177). -/
def accumulateLimbs (r : List Word) : Nat → List Word → List Byte → List Word
  | 0, h, _ => h
  | q + 1, h, msg =>
    accumulateLimbs r q (squeezeLimbs (mulLimbs (addLimbs 0 h (chunkLimbs (msg.take 16))) r)) (msg.drop 16)

/-- The limbs of `2^136 − P1305` (43_poly1305.md rule R177). -/
def minusPrimeLimbs : List Word := 5 :: (List.replicate 15 0 ++ [252])

/-- The final reduction: `h` or `h − P1305`, chosen by a mask and not by a branch (43_poly1305.md rules R177,
R178). -/
def reduceLimbs (g : List Word) : List Word :=
  let h := addLimbs 0 g minusPrimeLimbs
  let mask := 0 - (limbAt h 16 >>> 7)
  List.zipWith (fun hj gj => hj ^^^ (mask &&& (gj ^^^ hj))) h g

/-- The tag by the limb form (43_poly1305.md rule R177). -/
def poly1305Limbs (msg : List Byte) (pk : Bytes 32) : Bytes 16 :=
  let r := ((clamp (keyHalfR pk)).toList.map fun b : Byte => b.setWidth 32) ++ [0]
  let h := accumulateLimbs r (chunkCount msg.length) (List.replicate 17 0) msg
  let s := ((keyHalfS pk).toList.map fun b : Byte => b.setWidth 32) ++ [0]
  firstBytes 16 ((addLimbs 0 (reduceLimbs h) s).map fun w : Word => w.setWidth 8)

end Sys2Proof.Machine
end

