-- ==== Sys2Proof/WellFormed.lean ====
section
/-!
DEFINITION. Well-formedness. A command term is well-formed by its type: it carries only the flags its row allows
(30_encoding.md rule R72). A host access is checked: a register access must be aligned and inside the register
space, a `DM` access must lie inside `DM` (10_state.md rule R35, 20_memory.md rule R65,
93_implementation_defined.md V8).
-/

namespace Sys2Proof

/-- Every command term is well-formed: `Instr` has no term for a flag on a command that does not allow it
(30_encoding.md rules R72, R74), so no check is left to make. One arm each, so that a new command must say so too. -/
def Instr.wf : Instr → Bool
  | .scinit _ => true
  | .scperm => true
  | .ksblk _ => true
  | .xsubkey => true
  | .sxor _ _ => true
  | .xsxor _ => true
  | .pclamp => true
  | .pmac => true
  | .tvfy => true
  | .sealBox => true
  | .openBox => true

/-- The accesses the block's host interface accepts, for a `DM` of `size` bytes (10_state.md rule R35,
20_memory.md rule R65). -/
def Machine.HostAccess.wf (size : Nat) : Machine.HostAccess → Bool
  | .regWrite off _ => Machine.regOffsetOk off
  | .regRead off => Machine.regOffsetOk off
  | .memWrite addr bytes => Machine.dmSpanOk size addr bytes.length
  | .memRead addr n => Machine.dmSpanOk size addr n
  | .assertReset => true

end Sys2Proof
end

