-- ==== Sys2Proof/Safety.lean ====
section
/-!
DEFINITION. What counts as a safe run, in the terms the statements use: the invariant of the machine, which command
may report which failure, and the first failure of a command in the fixed order.
-/

namespace Sys2Proof.Machine

/-- The commands with an input view (20_memory.md rule R54). -/
def readsView : Instr → Bool
  | .scinit _ => false
  | .scperm => false
  | .ksblk _ => false
  | .xsubkey => false
  | .sxor _ ni => !ni
  | .xsxor ni => !ni
  | .pclamp => false
  | .pmac => true
  | .tvfy => false
  | .sealBox => true
  | .openBox => true

/-- The commands with an output view (20_memory.md rule R54). -/
def writesView : Instr → Bool
  | .scinit _ => false
  | .scperm => false
  | .ksblk _ => false
  | .xsubkey => false
  | .sxor _ _ => true
  | .xsxor _ => true
  | .pclamp => false
  | .pmac => false
  | .tvfy => false
  | .sealBox => true
  | .openBox => true

/-- The commands with a least length (60_exceptions.md rule R241). -/
def hasLeastLength : Instr → Bool
  | .scinit _ => false
  | .scperm => false
  | .ksblk _ => false
  | .xsubkey => false
  | .sxor _ _ => false
  | .xsxor _ => false
  | .pclamp => false
  | .pmac => false
  | .tvfy => false
  | .sealBox => true
  | .openBox => true

/-- The tag compare of a command fails (60_exceptions.md rule R242): for `TVFY`, `TAG` and `TREF` differ; for `OPEN`,
the recomputed tag and input bytes [16,32) differ. -/
def tagMismatch (i : Instr) (s : State) : Prop :=
  match i with
  | .scinit _ => False
  | .scperm => False
  | .ksblk _ => False
  | .xsubkey => False
  | .sxor _ _ => False
  | .xsxor _ => False
  | .pclamp => False
  | .pmac => False
  | .tvfy => s.tag ≠ s.tref
  | .sealBox => False
  | .openBox =>
    (poly1305 (s.inputView.drop 32) (firstBytes 32 (xsalsa20Xor none 32 s.nonce s.key))).toList
      ≠ (s.inputView.drop 16).take 16

/-- The views of a command that has both overlap partly (20_memory.md rule R56). -/
def viewsOverlapPartly (s : State) : Prop :=
  0 < s.len.toNat ∧ s.src ≠ s.dst ∧ s.src.toNat < s.dst.toNat + s.len.toNat
    ∧ s.dst.toNat < s.src.toNat + s.len.toNat

/-- A view of the command does not fit in `DM` (20_memory.md rule R55). -/
def viewOutOfRange (i : Instr) (s : State) : Prop :=
  (readsView i = true ∧ s.dm.size < s.src.toNat + s.len.toNat)
    ∨ (writesView i = true ∧ s.dm.size < s.dst.toNat + s.len.toNat)

/-- `code` is the first failure of the command in the fixed order `E_SHORT`, `E_RANGE`, `E_OVLP`, `E_AUTH`, or `OK` if
there is none (60_exceptions.md rule R247; `E_ILLCMD`, the first of all, is raised before there is a command). -/
def firstFailure (i : Instr) (s : State) (code : Code) : Prop :=
  let short := hasLeastLength i = true ∧ s.len.toNat < 32
  let range := viewOutOfRange i s
  let overlap := readsView i = true ∧ writesView i = true ∧ viewsOverlapPartly s
  match code with
  | .eShort => short
  | .eRange => ¬short ∧ range
  | .eOvlp => ¬short ∧ ¬range ∧ overlap
  | .eAuth => ¬short ∧ ¬range ∧ ¬overlap ∧ tagMismatch i s
  | .ok => ¬short ∧ ¬range ∧ ¬overlap ∧ ¬tagMismatch i s
  | .eIllcmd => False

/-- `code` is the result of a write of `cw` to `CMD`: `E_ILLCMD`, the first failure of all, if the word is illegal, else
the first failure of its command (60_exceptions.md rules R247, R248). -/
def wordResult (cw : Word) (s : State) (code : Code) : Prop :=
  match decode cw with
  | .error _ => code = .eIllcmd
  | .ok i => firstFailure i s code

/-- The illegal command words (30_encoding.md rule R74). -/
def illegalWord (cw : Word) : Prop :=
  cw.extractLsb' 16 16 ≠ 0 ∨ cw.extractLsb' 10 6 ≠ 0 ∨ cwOp cw = 0x00 ∨ 0x0B < (cwOp cw).toNat
    ∨ (cw.getLsbD 8 = true ∧ cwOp cw ≠ 0x01 ∧ cwOp cw ≠ 0x03 ∧ cwOp cw ≠ 0x05)
    ∨ (cw.getLsbD 9 = true ∧ cwOp cw ≠ 0x05 ∧ cwOp cw ≠ 0x06)

/-- The 17 legal command words (30_encoding.md rule R78). -/
def legalWords : List Word :=
  [0x00000001, 0x00000101, 0x00000002, 0x00000003, 0x00000103, 0x00000004, 0x00000005, 0x00000105, 0x00000205,
   0x00000305, 0x00000006, 0x00000206, 0x00000007, 0x00000008, 0x00000009, 0x0000000A, 0x0000000B]

/-- The offsets of the register space that the host can write: `SRC`, `DST`, `LEN`, `KEY`, `NONCE`, `BLK`, `TREF`,
`PK` and `X` (10_state.md rules R20, R35). `CMD` takes a write too, but stores nothing (rule R24). -/
def hostWritable (off : Nat) : Prop :=
  (0x008 ≤ off ∧ off < 0x014) ∨ (0x020 ≤ off ∧ off < 0x058) ∨ (0x060 ≤ off ∧ off < 0x0A0)
    ∨ (0x0C0 ≤ off ∧ off < 0x100)

/-- The reserved offsets (10_state.md rule R35). -/
def reservedOffset (off : Nat) : Prop :=
  (0x014 ≤ off ∧ off < 0x020) ∨ (0x058 ≤ off ∧ off < 0x060) ∨ (0x170 ≤ off ∧ off < 0x1000)

/-- What the views of a command need to be compared in two states: the three scalars, the size of `DM` and the bytes
of the input view. -/
def sameViews (s t : State) : Prop :=
  s.src = t.src ∧ s.dst = t.dst ∧ s.len = t.len ∧ s.dm.size = t.dm.size ∧ s.inputView = t.inputView

/-- The two states agree on everything the command reads (10_state.md rule R41, column "reads"). -/
def sameOperands (i : Instr) (s t : State) : Prop :=
  match i with
  | .scinit ks => s.blk = t.blk ∧ (if ks then s.subkey = t.subkey else s.key = t.key)
  | .scperm => s.x = t.x
  | .ksblk ks => s.blk = t.blk ∧ (if ks then s.subkey = t.subkey else s.key = t.key)
  | .xsubkey => s.key = t.key ∧ s.nonce.toList.take 16 = t.nonce.toList.take 16
  | .sxor ks ni =>
    s.nonce.toList.drop 16 = t.nonce.toList.drop 16 ∧ (if ks then s.subkey = t.subkey else s.key = t.key)
      ∧ s.dst = t.dst ∧ s.len = t.len ∧ s.dm.size = t.dm.size ∧ (ni = false → sameViews s t)
  | .xsxor ni =>
    s.key = t.key ∧ s.nonce = t.nonce ∧ s.dst = t.dst ∧ s.len = t.len ∧ s.dm.size = t.dm.size
      ∧ (ni = false → sameViews s t)
  | .pclamp => s.pk = t.pk
  | .pmac => s.pk = t.pk ∧ s.src = t.src ∧ s.len = t.len ∧ s.dm.size = t.dm.size ∧ s.inputView = t.inputView
  | .tvfy => s.tag = t.tag ∧ s.tref = t.tref
  | .sealBox => s.key = t.key ∧ s.nonce = t.nonce ∧ sameViews s t
  | .openBox => s.key = t.key ∧ s.nonce = t.nonce ∧ sameViews s t

/-- The bytes of the output view are the same in the two states. -/
def sameOutputView (s t : State) : Prop :=
  s.dm.readBytes s.dst.toNat s.len.toNat = t.dm.readBytes t.dst.toNat t.len.toNat

/-- The two states agree on everything the command writes besides `STATUS` (10_state.md rule R41, column
"writes"). -/
def sameResults (i : Instr) (s t : State) : Prop :=
  match i with
  | .scinit _ => s.x = t.x
  | .scperm => s.x = t.x
  | .ksblk _ => s.ob = t.ob
  | .xsubkey => s.subkey = t.subkey
  | .sxor _ _ => sameOutputView s t
  | .xsxor _ => sameOutputView s t
  | .pclamp => s.rReg = t.rReg ∧ s.sReg = t.sReg
  | .pmac => s.rReg = t.rReg ∧ s.sReg = t.sReg ∧ s.tag = t.tag
  | .tvfy => True
  | .sealBox => sameOutputView s t
  | .openBox => sameOutputView s t

/-- The codes a command word with low byte `op` can end with (60_exceptions.md rule R240, column "raised by"). -/
def codeRaisedBy (code : BitVec 4) (op : Byte) : Bool :=
  if code = 0 then decide (1 ≤ op.toNat) && decide (op.toNat ≤ 0x0B)
  else if code = 1 then op == 0x0A || op == 0x0B
  else if code = 2 then op == 0x09 || op == 0x0B
  else if code = 3 then true
  else if code = 4 then op == 0x05 || op == 0x06 || op == 0x08 || op == 0x0A || op == 0x0B
  else if code = 5 then op == 0x05 || op == 0x06 || op == 0x0A || op == 0x0B
  else false

/-- The `STATUS` words a run can hold (10_state.md rule R23, 60_exceptions.md rules R240, R248): all zero before the
first command; then the reserved bits zero, a code that the command of `LASTOP` can raise, and `ERRS` set if the code
is not `OK`. -/
def statusLegal (w : Word) : Bool :=
  w == 0 ||
    (statusDone w && statusLowReserved w == 0 && statusHighReserved w == 0
      && codeRaisedBy (statusCode w) (statusLastop w) && (statusCode w == 0 || statusErrs w))

/-- The invariant of the machine: `DM` keeps its canonical form and a size the spec allows, `STATUS` is a legal status
word, and `R` holds a clamped multiplier (10_state.md rule R33). -/
def State.Inv (s : State) : Prop :=
  s.dm.wf = true ∧ statusLegal s.status = true ∧ clamp s.rReg = s.rReg

end Sys2Proof.Machine
end

