-- ==== Sys2Proof/Certificates/Slice0/Obligations.lean ====
section
/-!
DEFINITION. The statements for the provers. Each says what the spec's rules say of a command, of a unit's function, of
the host's port or of the whole machine; the titles, the rules and the quoted sentences are in OBLIGATIONS.json.
-/

open Sys2Proof Sys2Proof.Machine

/-! ### Reset -/

/-- After reset every register is zero, and `STATUS` says so field by field (R271), whatever `DM` the host or the
platform has put beside the block. -/
def Obligations.ResetStateIsAllZero : Prop :=
  (∀ (dm : Memory) (script : List HostAccess),
    let s := State.resetWith dm script
    s.status = 0 ∧ s.src = 0 ∧ s.dst = 0 ∧ s.len = 0
      ∧ s.key = Vector.replicate 32 0 ∧ s.nonce = Vector.replicate 24 0 ∧ s.blk = Vector.replicate 16 0
      ∧ s.tref = Vector.replicate 16 0 ∧ s.pk = Vector.replicate 32 0 ∧ s.subkey = Vector.replicate 32 0
      ∧ s.x = Vector.replicate 16 0 ∧ s.ob = Vector.replicate 64 0 ∧ s.rReg = Vector.replicate 16 0
      ∧ s.sReg = Vector.replicate 16 0 ∧ s.tag = Vector.replicate 16 0 ∧ s.dm = dm
      ∧ statusCode s.status = Code.ok.bits ∧ statusDone s.status = false ∧ statusErrs s.status = false
      ∧ statusLastop s.status = 0)
    ∧ State.reset = State.resetWith State.reset.dm []

/-- Asserting the reset input zeroes every register and leaves `DM` untouched, whatever the machine did before
(R270). -/
def Obligations.ResetInputZeroesRegistersKeepsDm : Prop :=
  ∀ (s : State) (rest : List HostAccess), s.script = .assertReset :: rest →
    step s = .next
      { status := 0, src := 0, dst := 0, len := 0, key := Vector.replicate 32 0, nonce := Vector.replicate 24 0,
        blk := Vector.replicate 16 0, tref := Vector.replicate 16 0, pk := Vector.replicate 32 0,
        subkey := Vector.replicate 32 0, x := Vector.replicate 16 0, ob := Vector.replicate 64 0,
        rReg := Vector.replicate 16 0, sReg := Vector.replicate 16 0, tag := Vector.replicate 16 0,
        dm := s.dm, script := rest, reply := .nothing }

/-! ### The step -/

/-- A command word that the host writes to `CMD` and that decodes runs its command, whole, in one step (R24, R75).
The step adds only that the access leaves the host's script and that an earlier access's reply is gone. -/
def Obligations.StepRunsDecodedCommand : Prop :=
  ∀ (s : State) (cw : Word) (i : Instr) (rest : List HostAccess),
    s.script = .regWrite 0x000 cw :: rest → decode cw = .ok i →
      step s = exec i { s with script := rest, reply := .nothing }

/-- With no access of the host pending the machine stays as it is. That such a step exists is the model's choice
(notes/assumptions/4.md); that nothing happens in it is R5. -/
def Obligations.IdleMachineStays : Prop :=
  ∀ s : State, s.script = [] → step s = .next s

/-- Every command answers a next state in every state, and a step of the machine stops only on a host access that is
no access of the block: misaligned or outside the register space, or outside `DM` (R35, R55, R65). The two sides of
the second half that are the model's choice are the step with no access pending (notes/assumptions/4.md) and that an
access outside `DM` stops the machine (notes/assumptions/5.md). -/
def Obligations.EngineNeverStops : Prop :=
  (∀ (i : Instr) (s : State), ∃ t, exec i s = .next t)
    ∧ ∀ s : State, (∃ t, step s = .next t) ↔
        s.script = [] ∨ ∃ a rest, s.script = a :: rest ∧ a.wf s.dm.size = true

/-! ### The command word -/

/-- The encoding table: each of the 17 legal command words, written out, and the command and flags it stands for
(R78). A sanity statement. -/
def Obligations.CommandWordTable : Prop :=
  ∀ row ∈ ([(0x00000001, .scinit false), (0x00000101, .scinit true), (0x00000002, .scperm),
      (0x00000003, .ksblk false), (0x00000103, .ksblk true), (0x00000004, .xsubkey),
      (0x00000005, .sxor false false), (0x00000105, .sxor true false), (0x00000205, .sxor false true),
      (0x00000305, .sxor true true), (0x00000006, .xsxor false), (0x00000206, .xsxor true),
      (0x00000007, .pclamp), (0x00000008, .pmac), (0x00000009, .tvfy), (0x0000000A, .sealBox),
      (0x0000000B, .openBox)] : List (Word × Instr)),
    decode row.1 = .ok row.2 ∧ encode row.2 = row.1

/-- Decode and encode agree in both directions: a 32-bit word decodes to a command exactly if it is that command's
word, for every one of the 2^32 words and every command with every flag. -/
def Obligations.DecodeEncodeExact : Prop :=
  ∀ (cw : Word) (i : Instr), decode cw = .ok i ↔ cw = encode i

/-- The decoder rejects exactly the illegal words; all words but the 17 legal ones are illegal; and an illegal word
executes nothing: the step it makes changes `STATUS` only, with code `E_ILLCMD` (R74, R243). -/
def Obligations.IllegalWordsEndInEIllcmd : Prop :=
  ∀ cw : Word,
    ((∃ e, decode cw = .error e) ↔ illegalWord cw)
      ∧ (¬illegalWord cw ↔ cw ∈ legalWords) ∧ legalWords.Nodup ∧ legalWords.length = 17
      ∧ ∀ (s : State) (rest : List HostAccess), illegalWord cw → s.script = .regWrite 0x000 cw :: rest →
          step s = .next
            { s with script := rest, reply := .nothing, status := completedStatus s.status .eIllcmd (cwOp cw) }

/-! ### Completion and failure -/

/-- The completion bookkeeping of every write to `CMD`, legal or not, failing or not, with the code of the word's
result; a failing command changes nothing else; `ERRS` is sticky, cleared by reset only (R248). -/
def Obligations.CompletionBookkeeping : Prop :=
  (∀ (s : State) (cw : Word) (rest : List HostAccess), s.script = .regWrite 0x000 cw :: rest →
    ∃ (t : State) (code : Code), step s = .next t ∧ wordResult cw s code
      ∧ statusCode t.status = code.bits ∧ statusDone t.status = true
      ∧ statusErrs t.status = (statusErrs s.status || code != .ok)
      ∧ statusLastop t.status = cwOp cw ∧ statusLowReserved t.status = 0 ∧ statusHighReserved t.status = 0
      ∧ (code ≠ .ok → t = { s with status := t.status, script := rest, reply := .nothing }))
    ∧ ∀ s t : State, step s = .next t → statusErrs s.status = true →
        (∀ rest, s.script ≠ .assertReset :: rest) → statusErrs t.status = true

/-- The code a command word reports is the first failure in the fixed order `E_ILLCMD`, `E_SHORT`, `E_RANGE`,
`E_OVLP`, `E_AUTH`, and `OK` if there is none; in every state there is exactly one such code (R247). -/
def Obligations.FirstFailureIsReported : Prop :=
  ∀ (cw : Word) (s t : State), runCommand cw s = .next t →
    ∀ code : Code, statusCode t.status = code.bits ↔ wordResult cw s code

/-- After any code the engine accepts the next command, whatever it is, and repeating a command that failed gives the
same code again (R249). -/
def Obligations.RepeatedFailureGivesSameCode : Prop :=
  ∀ (cw : Word) (s t : State), runCommand cw s = .next t →
    (∀ cw' : Word, ∃ u, runCommand cw' t = .next u)
      ∧ (statusCode t.status ≠ Code.ok.bits →
          ∃ u, runCommand cw t = .next u ∧ statusCode u.status = statusCode t.status)

/-! ### The commands -/

/-- `SCINIT` writes the state built from `BLK` and the selected key into `X`, completes `OK`, and changes nothing else
(R108). -/
def Obligations.ScinitResult : Prop :=
  ∀ (ks : Bool) (s : State),
    decode (if ks then 0x00000101 else 0x00000001) = .ok (.scinit ks)
      ∧ exec (.scinit ks) s = .next
          { s with x := buildState s.blk (if ks then s.subkey else s.key)
                   status := completedStatus s.status .ok 0x01 }

/-- `SCPERM` puts the 20-round permutation of `X` into `X`, completes `OK`, and changes nothing else (R109). -/
def Obligations.ScpermResult : Prop :=
  ∀ s : State,
    decode 0x00000002 = .ok .scperm
      ∧ exec .scperm s = .next { s with x := perm20 s.x, status := completedStatus s.status .ok 0x02 }

/-- `KSBLK` writes the keystream block of `BLK` and the selected key into `OB`, completes `OK`, and changes nothing
else (R110). -/
def Obligations.KsblkResult : Prop :=
  ∀ (ks : Bool) (s : State),
    decode (if ks then 0x00000103 else 0x00000003) = .ok (.ksblk ks)
      ∧ exec (.ksblk ks) s = .next
          { s with ob := coreStream s.blk (if ks then s.subkey else s.key)
                   status := completedStatus s.status .ok 0x03 }

/-- `XSUBKEY` writes the subkey of `NONCE[0..16)` and `KEY` into `SUBKEY`, completes `OK`, and changes nothing else
(R152). -/
def Obligations.XsubkeyResult : Prop :=
  ∀ s : State,
    decode 0x00000004 = .ok .xsubkey
      ∧ exec .xsubkey s = .next
          { s with subkey := coreSubkey (slice s.nonce 0 16) s.key, status := completedStatus s.status .ok 0x04 }

/-- `SXOR`: `E_RANGE` if an existing view does not fit, else `E_OVLP` if there are two views and they overlap partly,
else the output view takes the stream XOR and the command completes `OK`; nothing else changes (R136). -/
def Obligations.SxorResult : Prop :=
  ∀ (ks ni : Bool) (s : State),
    decode (match ks, ni with
      | false, false => 0x00000005
      | true, false => 0x00000105
      | false, true => 0x00000205
      | true, true => 0x00000305) = .ok (.sxor ks ni)
      ∧ (viewOutOfRange (.sxor ks ni) s →
          exec (.sxor ks ni) s = .next { s with status := completedStatus s.status .eRange 0x05 })
      ∧ (¬viewOutOfRange (.sxor ks ni) s → ni = false ∧ viewsOverlapPartly s →
          exec (.sxor ks ni) s = .next { s with status := completedStatus s.status .eOvlp 0x05 })
      ∧ (¬viewOutOfRange (.sxor ks ni) s → ¬(ni = false ∧ viewsOverlapPartly s) →
          exec (.sxor ks ni) s = .next
            { s with dm := s.dm.writeBytes s.dst.toNat
                             (streamXor (if ni then none else some (s.dm.readBytes s.src.toNat s.len.toNat)) s.len
                               (slice s.nonce 16 8) (if ks then s.subkey else s.key))
                     status := completedStatus s.status .ok 0x05 })

/-- `XSXOR`: the checks of `SXOR`, then the output view takes the XSalsa20 XOR under `KEY` and `NONCE`; `SUBKEY` keeps
its value, and nothing else changes (R153). -/
def Obligations.XsxorResult : Prop :=
  ∀ (ni : Bool) (s : State),
    decode (if ni then 0x00000206 else 0x00000006) = .ok (.xsxor ni)
      ∧ (viewOutOfRange (.xsxor ni) s →
          exec (.xsxor ni) s = .next { s with status := completedStatus s.status .eRange 0x06 })
      ∧ (¬viewOutOfRange (.xsxor ni) s → ni = false ∧ viewsOverlapPartly s →
          exec (.xsxor ni) s = .next { s with status := completedStatus s.status .eOvlp 0x06 })
      ∧ (¬viewOutOfRange (.xsxor ni) s → ¬(ni = false ∧ viewsOverlapPartly s) →
          exec (.xsxor ni) s = .next
            { s with dm := s.dm.writeBytes s.dst.toNat
                             (streamXor (if ni then none else some (s.dm.readBytes s.src.toNat s.len.toNat)) s.len
                               (slice s.nonce 16 8) (coreSubkey (slice s.nonce 0 16) s.key))
                     status := completedStatus s.status .ok 0x06 })

/-- `PCLAMP` writes the clamped first half of `PK` into `R` and its second half into `S`, completes `OK`, and changes
nothing else (R180). -/
def Obligations.PclampResult : Prop :=
  ∀ s : State,
    decode 0x00000007 = .ok .pclamp
      ∧ exec .pclamp s = .next
          { s with rReg := clamp (slice s.pk 0 16), sReg := slice s.pk 16 16
                   status := completedStatus s.status .ok 0x07 }

/-- `PMAC`: `E_RANGE` if the input view does not fit, else `R`, `S` and `TAG` are written from `PK` and the input view
and the command completes `OK`; nothing else changes (R181). -/
def Obligations.PmacResult : Prop :=
  ∀ s : State,
    decode 0x00000008 = .ok .pmac
      ∧ (s.dm.size < s.src.toNat + s.len.toNat →
          exec .pmac s = .next { s with status := completedStatus s.status .eRange 0x08 })
      ∧ (s.src.toNat + s.len.toNat ≤ s.dm.size →
          exec .pmac s = .next
            { s with rReg := clamp (slice s.pk 0 16), sReg := slice s.pk 16 16
                     tag := poly1305 (s.dm.readBytes s.src.toNat s.len.toNat) s.pk
                     status := completedStatus s.status .ok 0x08 })

/-- `TVFY` completes `OK` if `TAG` equals `TREF` and ends `E_AUTH` if they differ in any bit; nothing but `STATUS`
changes in either case (R182). -/
def Obligations.TvfyResult : Prop :=
  ∀ s : State,
    decode 0x00000009 = .ok .tvfy
      ∧ (s.tag = s.tref → exec .tvfy s = .next { s with status := completedStatus s.status .ok 0x09 })
      ∧ (s.tag ≠ s.tref → exec .tvfy s = .next { s with status := completedStatus s.status .eAuth 0x09 })

/-- `SEAL`: `E_SHORT`, then `E_RANGE`, then `E_OVLP`, each leaving all but `STATUS`; else the output view takes 16 zero
bytes, the tag and the ciphertext, and the command completes `OK`; nothing else changes (R212). -/
def Obligations.SealResult : Prop :=
  ∀ s : State,
    decode 0x0000000A = .ok .sealBox
      ∧ (s.len.toNat < 32 → exec .sealBox s = .next { s with status := completedStatus s.status .eShort 0x0A })
      ∧ (32 ≤ s.len.toNat → viewOutOfRange .sealBox s →
          exec .sealBox s = .next { s with status := completedStatus s.status .eRange 0x0A })
      ∧ (32 ≤ s.len.toNat → ¬viewOutOfRange .sealBox s → viewsOverlapPartly s →
          exec .sealBox s = .next { s with status := completedStatus s.status .eOvlp 0x0A })
      ∧ (32 ≤ s.len.toNat → ¬viewOutOfRange .sealBox s → ¬viewsOverlapPartly s →
          let c := xsalsa20Xor (some (s.dm.readBytes s.src.toNat s.len.toNat)) s.len s.nonce s.key
          exec .sealBox s = .next
            { s with dm := s.dm.writeBytes s.dst.toNat
                             (List.replicate 16 0 ++ (poly1305 (c.drop 32) (firstBytes 32 c)).toList ++ c.drop 32)
                     status := completedStatus s.status .ok 0x0A })

/-- `OPEN`: `E_SHORT`, `E_RANGE`, `E_OVLP`, then `E_AUTH` if the recomputed tag differs from input bytes [16,32), each
leaving all but `STATUS`; else the output view takes 32 zero bytes and the decrypted bytes, and the command completes
`OK`; nothing else changes (R216). -/
def Obligations.OpenResult : Prop :=
  ∀ s : State,
    decode 0x0000000B = .ok .openBox
      ∧ (s.len.toNat < 32 → exec .openBox s = .next { s with status := completedStatus s.status .eShort 0x0B })
      ∧ (32 ≤ s.len.toNat → viewOutOfRange .openBox s →
          exec .openBox s = .next { s with status := completedStatus s.status .eRange 0x0B })
      ∧ (32 ≤ s.len.toNat → ¬viewOutOfRange .openBox s → viewsOverlapPartly s →
          exec .openBox s = .next { s with status := completedStatus s.status .eOvlp 0x0B })
      ∧ (32 ≤ s.len.toNat → ¬viewOutOfRange .openBox s → ¬viewsOverlapPartly s → tagMismatch .openBox s →
          exec .openBox s = .next { s with status := completedStatus s.status .eAuth 0x0B })
      ∧ (32 ≤ s.len.toNat → ¬viewOutOfRange .openBox s → ¬viewsOverlapPartly s → ¬tagMismatch .openBox s →
          exec .openBox s = .next
            { s with dm := s.dm.writeBytes s.dst.toNat
                             (List.replicate 32 0 ++
                               (xsalsa20Xor (some (s.dm.readBytes s.src.toNat s.len.toNat)) s.len s.nonce
                                 s.key).drop 32)
                     status := completedStatus s.status .ok 0x0B })

/-! ### The Salsa20 core -/

/-- The byte order, at every index of an array of any length: `ld32` and `le_int` as the sums they are, `st32` byte by
byte, `ld32` and `st32` inverse to each other, `le_bytes` inverse to `le_int` (R12, R13, R14). -/
def Obligations.WordsAreLittleEndian : Prop :=
  (∀ (n : Nat) (a : Bytes n) (o : Nat) (h : o + 4 ≤ n),
    (ld32 a o h).toNat
        = a[o].toNat + 2 ^ 8 * a[o + 1].toNat + 2 ^ 16 * a[o + 2].toNat + 2 ^ 24 * a[o + 3].toNat
      ∧ (ld32 a o h).toNat = leInt ((a.toList.drop o).take 4))
    ∧ (∀ w : Word, ld32 (st32 w) 0 = w ∧ st32 w = leBytes 4 w.toNat
        ∧ st32 w = #v[w.extractLsb' 0 8, w.extractLsb' 8 8, w.extractLsb' 16 8, w.extractLsb' 24 8])
    ∧ (∀ l : List Byte, leInt l = ∑ i : Fin l.length, l[i].toNat * 2 ^ (8 * i.val))
    ∧ ∀ n v : Nat, v < 2 ^ (8 * n) → leInt (leBytes n v).toList = v

/-- The places of the constant, of the key halves and of the block in the built state (R101). -/
def Obligations.BuildStateLayout : Prop :=
  ∀ (blk : Bytes 16) (key : Bytes 32) (i : Fin 4),
    (buildState blk key)[5 * i.val] = ld32 sigma (4 * i.val)
      ∧ (buildState blk key)[1 + i.val] = ld32 key (4 * i.val)
      ∧ (buildState blk key)[6 + i.val] = ld32 blk (4 * i.val)
      ∧ (buildState blk key)[11 + i.val] = ld32 key (16 + 4 * i.val)

/-- The four sequential updates of the quarter-round; it is a bijection and fixes the zero tuple (R102). -/
def Obligations.QuarterRoundRule : Prop :=
  (∀ t : Quad,
    (quarter t).t1 = t.t1 ^^^ (t.t0 + t.t3).rotateLeft 7
      ∧ (quarter t).t2 = t.t2 ^^^ ((quarter t).t1 + t.t0).rotateLeft 9
      ∧ (quarter t).t3 = t.t3 ^^^ ((quarter t).t2 + (quarter t).t1).rotateLeft 13
      ∧ (quarter t).t0 = t.t0 ^^^ ((quarter t).t3 + (quarter t).t2).rotateLeft 18)
    ∧ Function.Bijective quarter ∧ quarter ⟨0, 0, 0, 0⟩ = ⟨0, 0, 0, 0⟩

/-- The index formulas of the round: quarter-round `j` reads `x[(5j + 4m) mod 16]` as `t[m]` and writes `t[m]` to
`w[4j + ((j + m) mod 4)]` (R103). -/
def Obligations.RoundFollowsIndexFormulas : Prop :=
  ∀ (x : Words16) (j m : Fin 4),
    (salsaRound x)[4 * j.val + (j.val + m.val) % 4] =
      (quarter ⟨x[(5 * j.val + 4 * 0) % 16], x[(5 * j.val + 4 * 1) % 16], x[(5 * j.val + 4 * 2) % 16],
        x[(5 * j.val + 4 * 3) % 16]⟩).word m

/-- `perm20` is 20 rounds whatever the data, a bijection, and fixes the zero state (R104). -/
def Obligations.Perm20IsTwentyRoundsAndBijective : Prop :=
  (∀ x : Words16, perm20 x = (salsaRound^[20]) x) ∧ Function.Bijective perm20
    ∧ perm20 (Vector.replicate 16 0) = Vector.replicate 16 0

/-- Two rounds are one canonical double-round, 20 rounds are ten of them, and one round is the canonical column round
followed by a transposition (R105). -/
def Obligations.RoundsAreCanonicalDoubleRounds : Prop :=
  ∀ x : Words16,
    salsaRound (salsaRound x) = doubleRound x ∧ perm20 x = doubleRounds 10 x
      ∧ ∀ i j : Fin 4, (salsaRound x)[4 * i.val + j.val] = (columnRound x)[4 * j.val + i.val]

/-- `KSBLK` is the feed-forward of `SCINIT` and `SCPERM`: `OB` holds, word by word, `X` after `SCINIT` plus `X` after
a following `SCPERM` (R110, relation to `SCINIT` and `SCPERM`). -/
def Obligations.KsblkIsFeedForwardOfScperm : Prop :=
  ∀ (ks : Bool) (s y z u : State),
    exec (.scinit ks) s = .next y → exec .scperm y = .next z → exec (.ksblk ks) s = .next u →
      ∀ i : Fin 16, ld32 u.ob (4 * i.val) = z.x[i] + y.x[i]

/-- The subkey mode emits eight words of the permuted state, with no feed-forward left (R107, derived part). -/
def Obligations.SubkeyHasNoFeedForward : Prop :=
  ∀ (blk : Bytes 16) (key : Bytes 32),
    let z := perm20 (buildState blk key)
    coreSubkey blk key = storeWords #v[z[0], z[5], z[10], z[15], z[6], z[7], z[8], z[9]]

/-- `XSUBKEY` gives what `SCINIT` then `SCPERM` leave in words 0, 5, 10, 15, 6, 7, 8, 9 of `X`, with `BLK` holding
`NONCE[0..16)` (R152, relation to unit U1). -/
def Obligations.XsubkeyFromPermutation : Prop :=
  ∀ s y z u : State, s.blk.toList = s.nonce.toList.take 16 →
    exec (.scinit false) s = .next y → exec .scperm y = .next z → exec .xsubkey s = .next u →
      u.subkey = storeWords #v[z.x[0], z.x[5], z.x[10], z.x[15], z.x[6], z.x[7], z.x[8], z.x[9]]

/-! ### The stream -/

/-- The keystream of `n` bytes has `n` bytes, and its byte `i` is byte `i mod 64` of the block with counter
`floor(i / 64)`, the counter starting at 0 (R131). -/
def Obligations.KeystreamBytesComeFromBlocks : Prop :=
  ∀ (sn : Bytes 8) (key : Bytes 32) (n : Word),
    (keystream sn key n).length = n.toNat
      ∧ ∀ i : Nat, i < n.toNat →
          (keystream sn key n)[i]? = some ((coreStream (sn ++ leBytes 8 (i / 64)) key)[i % 64]'(by omega))

/-- One command uses at most 2^26 blocks, so bytes [12,16) of every core input block of a stream are zero and the
counter cannot wrap (R133). -/
def Obligations.BlockCounterNeverWraps : Prop :=
  ∀ (n : Word) (sn : Bytes 8) (ctr : Nat),
    blockCount n.toNat ≤ 2 ^ 26
      ∧ (ctr < blockCount n.toNat →
          leInt ((streamBlock sn ctr).toList.drop 8) = ctr ∧ (streamBlock sn ctr).toList.drop 12 = [0, 0, 0, 0])

/-- The stream XOR inverts itself, a zero input is an absent input, and a shorter keystream is a prefix of a longer
one (R134). -/
def Obligations.StreamXorProperties : Prop :=
  ∀ (sn : Bytes 8) (key : Bytes 32) (n : Word),
    (∀ m : List Byte, m.length = n.toNat →
      streamXor (some (streamXor (some m) n sn key)) n sn key = m)
      ∧ streamXor (some (List.replicate n.toNat 0)) n sn key = streamXor none n sn key
      ∧ streamXor none n sn key = keystream sn key n
      ∧ ∀ n' : Word, n.toNat ≤ n'.toNat → keystream sn key n <+: keystream sn key n'

/-- `KSBLK` with a stream nonce and the counter `k` in `BLK` gives block `k` of the stream (R110, R131). -/
def Obligations.KsblkGivesStreamBlock : Prop :=
  ∀ (ks : Bool) (s u : State) (sn : Bytes 8) (k : Nat) (n : Word),
    s.blk = sn ++ leBytes 8 k → 64 * (k + 1) ≤ n.toNat → exec (.ksblk ks) s = .next u →
      u.ob.toList = ((keystream sn (if ks then s.subkey else s.key) n).drop (64 * k)).take 64

/-- Byte by byte, what `SXOR` and `XSXOR` leave in the output view when they complete `OK`: the input byte, or zero
without an input, XOR the keystream byte; every byte outside the output view is as before (R54, R132, R136, R153). -/
def Obligations.StreamOutputBytes : Prop :=
  ∀ (ni : Bool) (s t : State),
    let inputByte := fun k : Nat => if ni then 0 else s.dm.readByte (s.src.toNat + k)
    let after := fun (key : Bytes 32) =>
      (∀ k : Nat, k < s.len.toNat →
        some (t.dm.readByte (s.dst.toNat + k)) =
          ((keystream (slice s.nonce 16 8) key s.len)[k]?).map fun b => inputByte k ^^^ b)
        ∧ ∀ a : Nat, (a < s.dst.toNat ∨ s.dst.toNat + s.len.toNat ≤ a) → t.dm.readByte a = s.dm.readByte a
    (∀ ks : Bool, exec (.sxor ks ni) s = .next t → statusCode t.status = Code.ok.bits →
      after (if ks then s.subkey else s.key))
      ∧ (exec (.xsxor ni) s = .next t → statusCode t.status = Code.ok.bits →
          after (coreSubkey (slice s.nonce 0 16) s.key))

/-- The same `SXOR` or `XSXOR` twice in place restores every byte of `DM` (R136, R153, corner cases). -/
def Obligations.StreamTwiceInPlaceRestores : Prop :=
  ∀ (i : Instr) (s t u : State),
    (∃ ks, i = .sxor ks false) ∨ i = .xsxor false → s.src = s.dst →
      exec i s = .next t → statusCode t.status = Code.ok.bits → exec i t = .next u →
        statusCode u.status = Code.ok.bits ∧ ∀ a : Nat, u.dm.readByte a = s.dm.readByte a

/-- `XSUBKEY` then `SXOR.KS` leaves what `XSXOR` leaves, but for `SUBKEY` and `LASTOP`, with an input and without
(R154). -/
def Obligations.XsubkeySxorEqualsXsxor : Prop :=
  ∀ (ni : Bool) (s t u v : State),
    exec .xsubkey s = .next t → exec (.sxor true ni) t = .next u → exec (.xsxor ni) s = .next v →
      u = { v with subkey := coreSubkey (slice s.nonce 0 16) s.key, status := u.status }
        ∧ statusCode u.status = statusCode v.status ∧ statusDone u.status = statusDone v.status
        ∧ statusErrs u.status = statusErrs v.status
        ∧ statusLastop u.status = 0x05 ∧ statusLastop v.status = 0x06

/-! ### Poly1305 -/

/-- The clamp, byte by byte and as an integer mask; it is idempotent (R172). -/
def Obligations.ClampRule : Prop :=
  ∀ rb : Bytes 16,
    (∀ i : Fin 16, (clamp rb)[i] = rb[i] &&&
      (if i.val ∈ [3, 7, 11, 15] then 0x0f else if i.val ∈ [4, 8, 12] then 0xfc else 0xff))
      ∧ leInt (clamp rb).toList = leInt rb.toList &&& 0x0ffffffc0ffffffc0ffffffc0fffffff
      ∧ leInt (clamp rb).toList < 2 ^ 124 ∧ clamp (clamp rb) = clamp rb

/-- The bounds of a chunk's value: `2^8 ≤ c < 2^129`, and `c ≥ 2^128` exactly for a full chunk (R173). -/
def Obligations.ChunkValueBounds : Prop :=
  ∀ chunk : List Byte, 1 ≤ chunk.length → chunk.length ≤ 16 →
    2 ^ 8 ≤ chunkValue chunk ∧ chunkValue chunk < 2 ^ 129 ∧ (2 ^ 128 ≤ chunkValue chunk ↔ chunk.length = 16)

/-- The tag as the unrolled polynomial: with `q = ceil(n / 16)` chunks,
`le_int(tag) = ((c_0 · r^q + … + c_(q−1) · r) mod P1305 + s) mod 2^128` (R174, R175, R176). -/
def Obligations.PolyTagIsPolynomial : Prop :=
  ∀ (msg : List Byte) (pk : Bytes 32),
    let q := (msg.length + 15) / 16
    let r := leInt (clamp (slice pk 0 16)).toList
    let s := leInt (slice pk 16 16).toList
    let c := fun k : Nat =>
      leInt ((msg.drop (16 * k)).take 16) + 2 ^ (8 * ((msg.drop (16 * k)).take 16).length)
    leInt (poly1305 msg pk).toList =
      ((∑ k ∈ Finset.range q, c k * r ^ (q - k)) % (2 ^ 130 - 5) + s) % 2 ^ 128

/-- The tag of an empty message, and of any message when the clamped multiplier is zero, is the mask itself (R176,
consequences). -/
def Obligations.PolyTagIsMaskWhenEmptyOrZero : Prop :=
  ∀ (msg : List Byte) (pk : Bytes 32),
    msg = [] ∨ leInt (clamp (slice pk 0 16)).toList = 0 → poly1305 msg pk = slice pk 16 16

/-- The 17-limb procedure computes the integer definition (R177, R178). -/
def Obligations.LimbFormComputesPoly1305 : Prop :=
  ∀ (msg : List Byte) (pk : Bytes 32), poly1305Limbs msg pk = poly1305 msg pk

/-- The OR of all byte differences is zero exactly when the arrays are equal (R179). -/
def Obligations.Verify16IsEquality : Prop :=
  ∀ a b : Bytes 16, verify16 a b = true ↔ a = b

/-! ### The secretbox -/

/-- Byte by byte, what a completed `SEAL` leaves in the output view: 16 zero bytes, the tag of the ciphertext under
the first 32 bytes of the XOR result, whatever the input's padding holds, and the ciphertext; every byte outside the
output view is as before (R210, R211, R213). -/
def Obligations.SealOutputLayout : Prop :=
  ∀ s t : State, exec .sealBox s = .next t → statusCode t.status = Code.ok.bits →
    let inp := s.dm.readBytes s.src.toNat s.len.toNat
    let ks := xsalsa20Xor none s.len s.nonce s.key
    let out := t.dm.readBytes s.dst.toNat s.len.toNat
    32 ≤ s.len.toNat ∧ out.take 16 = List.replicate 16 0
      ∧ out.drop 32 = (List.zipWith (· ^^^ ·) inp ks).drop 32
      ∧ (out.drop 16).take 16 =
          (poly1305 (out.drop 32) (firstBytes 32 ((List.zipWith (· ^^^ ·) inp ks).take 32))).toList
      ∧ ∀ a : Nat, (a < s.dst.toNat ∨ s.dst.toNat + s.len.toNat ≤ a) → t.dm.readByte a = s.dm.readByte a

/-- Round trip: a padded plaintext that `SEAL` completes `OK` on, opened from where it was sealed to, into any output
view that is the same or disjoint, completes `OK` and gives the padded plaintext back (R218 a, b). -/
def Obligations.SealThenOpenRestores : Prop :=
  ∀ (s t : State) (dst : Word),
    (s.dm.readBytes s.src.toNat s.len.toNat).take 32 = List.replicate 32 0 →
    exec .sealBox s = .next t → statusCode t.status = Code.ok.bits →
    dst.toNat + s.len.toNat ≤ s.dm.size →
    dst = s.dst ∨ dst.toNat + s.len.toNat ≤ s.dst.toNat ∨ s.dst.toNat + s.len.toNat ≤ dst.toNat →
      ∃ u, exec .openBox { t with src := s.dst, dst := dst } = .next u ∧ statusCode u.status = Code.ok.bits
        ∧ u.dm.readBytes dst.toNat s.len.toNat = s.dm.readBytes s.src.toNat s.len.toNat

/-- Input bytes [0,16) take no part in `OPEN`: whatever they hold, the code and, on success, the output view are the
same (R214). -/
def Obligations.OpenIgnoresReservedRegion : Prop :=
  ∀ (s t t' : State) (z : List Byte), z.length = 16 → 32 ≤ s.len.toNat →
    exec .openBox s = .next t → exec .openBox { s with dm := s.dm.writeBytes s.src.toNat z } = .next t' →
      t'.status = t.status
        ∧ (statusCode t.status = Code.ok.bits →
            t'.dm.readBytes s.dst.toNat s.len.toNat = t.dm.readBytes s.dst.toNat s.len.toNat)

/-! ### What a command may touch -/

/-- The register frame of every command: no command writes an operand register, and each result register is written by
its own commands only (R41, column "writes"). -/
def Obligations.CommandsWriteOnlyTheirRegisters : Prop :=
  ∀ (i : Instr) (s t : State), exec i s = .next t →
    t.src = s.src ∧ t.dst = s.dst ∧ t.len = s.len ∧ t.key = s.key ∧ t.nonce = s.nonce ∧ t.blk = s.blk
      ∧ t.tref = s.tref ∧ t.pk = s.pk ∧ t.script = s.script ∧ t.reply = s.reply
      ∧ ((∀ ks, i ≠ .scinit ks) → i ≠ .scperm → t.x = s.x)
      ∧ ((∀ ks, i ≠ .ksblk ks) → t.ob = s.ob)
      ∧ (i ≠ .xsubkey → t.subkey = s.subkey)
      ∧ (i ≠ .pclamp → i ≠ .pmac → t.rReg = s.rReg ∧ t.sReg = s.sReg)
      ∧ (i ≠ .pmac → t.tag = s.tag)

/-- The memory frame of every command: the size of `DM` never changes; a command without an output view leaves `DM` as
it was; the others leave every byte outside `[DST, DST + LEN)` as it was (R50, R54). -/
def Obligations.CommandMemoryFrame : Prop :=
  ∀ (i : Instr) (s t : State), exec i s = .next t →
    t.dm.size = s.dm.size ∧ (writesView i = false → t.dm = s.dm)
      ∧ ∀ a : Nat, (a < s.dst.toNat ∨ s.dst.toNat + s.len.toNat ≤ a) → t.dm.readByte a = s.dm.readByte a

/-- A command depends on its operands only: in two states that agree on what the command reads it reports the same
code and, if that is `OK`, writes the same results (R41, column "reads"). -/
def Obligations.CommandsReadOnlyTheirOperands : Prop :=
  ∀ (i : Instr) (s s' t t' : State), sameOperands i s s' → exec i s = .next t → exec i s' = .next t' →
    statusCode t.status = statusCode t'.status
      ∧ (statusCode t.status = Code.ok.bits → sameResults i t t')

/-! ### The host's port -/

/-- A word written to a writable offset reads back unchanged, no other offset reads differently, and `DM` is as
before (R25, R35). -/
def Obligations.RegisterReadback : Prop :=
  ∀ (s : State) (off : Nat) (v : Word) (rest : List HostAccess), off % 4 = 0 → hostWritable off →
    s.script = .regWrite off v :: .regRead off :: rest →
      ∃ t u, step s = .next t ∧ step t = .next u ∧ u.reply = .word v ∧ u.script = rest ∧ u.dm = s.dm
        ∧ ∀ off' : Nat, off' % 4 = 0 → off' ≠ off →
            u.readReg (regAt off') = s.readReg (regAt off')

/-- `CMD` and the reserved offsets read 0; a write to a reserved offset or to a host-read-only register changes
nothing and raises nothing; a register read has no side effect (R36). -/
def Obligations.ReadOnlyAndReservedOffsets : Prop :=
  ∀ (s : State) (off : Nat) (rest : List HostAccess), off % 4 = 0 → off < 0x1000 →
    (off = 0 ∨ reservedOffset off → s.readReg (regAt off) = 0)
      ∧ (∀ v : Word, off ≠ 0 → ¬hostWritable off → s.script = .regWrite off v :: rest →
          step s = .next { s with script := rest, reply := .nothing })
      ∧ (s.script = .regRead off :: rest →
          step s = .next { s with script := rest, reply := .word (s.readReg (regAt off)) })

/-- The register map: what `RegRead` returns at every offset that is not reserved, byte-array registers packed
little-endian (R35). -/
def Obligations.RegisterMap : Prop :=
  ∀ s : State,
    s.readReg (regAt 0x004) = s.status ∧ s.readReg (regAt 0x008) = s.src ∧ s.readReg (regAt 0x00C) = s.dst
      ∧ s.readReg (regAt 0x010) = s.len
      ∧ (∀ j : Fin 8, s.readReg (regAt (0x020 + 4 * j.val)) = ld32 s.key (4 * j.val)
          ∧ s.readReg (regAt (0x080 + 4 * j.val)) = ld32 s.pk (4 * j.val)
          ∧ s.readReg (regAt (0x0A0 + 4 * j.val)) = ld32 s.subkey (4 * j.val))
      ∧ (∀ j : Fin 6, s.readReg (regAt (0x040 + 4 * j.val)) = ld32 s.nonce (4 * j.val))
      ∧ (∀ j : Fin 4, s.readReg (regAt (0x060 + 4 * j.val)) = ld32 s.blk (4 * j.val)
          ∧ s.readReg (regAt (0x070 + 4 * j.val)) = ld32 s.tref (4 * j.val)
          ∧ s.readReg (regAt (0x140 + 4 * j.val)) = ld32 s.rReg (4 * j.val)
          ∧ s.readReg (regAt (0x150 + 4 * j.val)) = ld32 s.sReg (4 * j.val)
          ∧ s.readReg (regAt (0x160 + 4 * j.val)) = ld32 s.tag (4 * j.val))
      ∧ ∀ i : Fin 16, s.readReg (regAt (0x0C0 + 4 * i.val)) = s.x[i]
          ∧ s.readReg (regAt (0x100 + 4 * i.val)) = ld32 s.ob (4 * i.val)

/-- A register access whose offset is not a multiple of 4 or is not below 0x1000 is refused (R35). -/
def Obligations.MisalignedRegisterAccessRefused : Prop :=
  ∀ (s : State) (off : Nat) (v : Word) (rest : List HostAccess), off % 4 ≠ 0 ∨ 0x1000 ≤ off →
    (s.script = .regWrite off v :: rest → step s = .refused (.notARegisterAccess off))
      ∧ (s.script = .regRead off :: rest → step s = .refused (.notARegisterAccess off))

/-- The host's accesses to `DM` inside its bounds: a write sets exactly the bytes it names and changes no register, a
read hands back the bytes and changes nothing (R65). -/
def Obligations.HostMemoryAccess : Prop :=
  ∀ (s : State) (addr : Nat) (rest : List HostAccess),
    (∀ bs : List Byte, addr + bs.length ≤ s.dm.size → s.script = .memWrite addr bs :: rest →
      ∃ t, step s = .next t ∧ t = { s with dm := t.dm, script := rest, reply := .nothing }
        ∧ t.dm.size = s.dm.size
        ∧ (∀ (i : Nat) (h : i < bs.length), t.dm.readByte (addr + i) = bs[i])
        ∧ ∀ a : Nat, (a < addr ∨ addr + bs.length ≤ a) → t.dm.readByte a = s.dm.readByte a)
      ∧ ∀ n : Nat, addr + n ≤ s.dm.size → s.script = .memRead addr n :: rest →
          step s = .next
            { s with script := rest
                     reply := .bytes ((List.range n).map fun i => s.dm.readByte (addr + i)) }

/-- A host access to `DM` that reaches past `DM_BYTES` stops the machine with a fault; that it is a fault is the
model's choice (notes/assumptions/5.md). -/
def Obligations.HostMemoryOutsideDmFaults : Prop :=
  ∀ (s : State) (addr : Nat) (rest : List HostAccess),
    (∀ bs : List Byte, s.dm.size < addr + bs.length → s.script = .memWrite addr bs :: rest →
      step s = .fault (.noSuchDmAddress addr bs.length))
      ∧ ∀ n : Nat, s.dm.size < addr + n → s.script = .memRead addr n :: rest →
          step s = .fault (.noSuchDmAddress addr n)

/-! ### The invariant -/

/-- Every step keeps the invariant: `DM` keeps its canonical form and size bounds, `STATUS` stays a legal status word
(reserved bits zero, only codes that the command of `LASTOP` can raise, `ERRS` set with every failure), and `R` stays
a clamped multiplier. -/
def Obligations.EveryStepKeepsInvariant : Prop :=
  ∀ s t : State, s.Inv → step s = .next t → t.Inv

/-- The invariant holds at reset. -/
def Obligations.ResetMeetsInvariant : Prop := State.reset.Inv
end

