-- ==== Sys2Proof/Laws/Bytes.lean ====
section
/-!
SUPPORT. Lengths and elements of the byte helpers and of the keystream.
-/

namespace Sys2Proof.Machine

@[simp] theorem xorBytes_length (a b : List Byte) : (xorBytes a b).length = min a.length b.length := by
  simp [xorBytes]

theorem xorBytes_getElem (a b : List Byte) (i : Nat) (h : i < (xorBytes a b).length) :
    (xorBytes a b)[i] = a[i]'(by simp at h; omega) ^^^ b[i]'(by simp at h; omega) := by
  simp [xorBytes]

/-- XOR with the same bytes twice gives the first operand back. -/
theorem xorBytes_twice (a k : List Byte) (h : a.length ≤ k.length) : xorBytes (xorBytes a k) k = a := by
  apply List.ext_getElem
  · simp [h]
  · intro i h1 h2
    simp [xorBytes]

@[simp] theorem toList_slice {n : Nat} (a : Bytes n) (i k : Nat) (h : i + k ≤ n) :
    (slice a i k h).toList = (a.toList.drop i).take k := by
  simp [slice]

@[simp] theorem toList_leBytes (n v : Nat) : (leBytes n v).toList = leDigits n v := by
  simp [leBytes]

theorem toList_firstBytes (n : Nat) (l : List Byte) (h : n ≤ l.length) : (firstBytes n l).toList = l.take n := by
  simp [firstBytes, List.take_append, Nat.sub_eq_zero_of_le h]

/-- `le_int` of `n` bytes is below `2^(8n)`. -/
theorem leInt_lt (l : List Byte) : leInt l < 256 ^ l.length := by
  induction l with
  | nil => simp [leInt]
  | cons b bs ih =>
    have := b.isLt
    simp only [leInt, List.length_cons, pow_succ]
    omega

/-- `le_int(le_bytes(n, v)) = v` for `v < 2^(8n)` (00_scope.md rule R14). -/
theorem leInt_leDigits (n v : Nat) (h : v < 256 ^ n) : leInt (leDigits n v) = v := by
  induction n generalizing v with
  | zero =>
    have : v = 0 := by simpa using h
    simp [leDigits, leInt, this]
  | succ n ih =>
    have := ih (v / 256) (by rw [pow_succ] at h; omega)
    simp only [leDigits, leInt, this, BitVec.toNat_ofNat]
    omega

@[simp] theorem streamBlocks_length (sn : Bytes 8) (key : Bytes 32) (ctr count : Nat) :
    (streamBlocks sn key ctr count).length = 64 * count := by
  induction count generalizing ctr with
  | zero => rfl
  | succ n ih =>
    simp [streamBlocks, ih]
    omega

/-- The keystream of `n` bytes has `n` bytes (41_salsa20_stream.md rule R131). -/
@[simp] theorem keystream_length (sn : Bytes 8) (key : Bytes 32) (n : Word) :
    (keystream sn key n).length = n.toNat := by
  simp [keystream, blockCount]
  omega

/-- A stream XOR of an input of `n` bytes, or of none, has `n` bytes (41_salsa20_stream.md rule R132). -/
theorem streamXor_length (inp : Option (List Byte)) (n : Word) (sn : Bytes 8) (key : Bytes 32)
    (h : ∀ m ∈ inp, m.length = n.toNat) : (streamXor inp n sn key).length = n.toNat := by
  cases inp with
  | none => simp [streamXor]
  | some m => simp [streamXor, h m rfl]

/-- The output of an XSalsa20 XOR has `n` bytes (42_xsalsa20.md rule R151). -/
theorem xsalsa20Xor_length (inp : Option (List Byte)) (n : Word) (nonce : Bytes 24) (key : Bytes 32)
    (h : ∀ m ∈ inp, m.length = n.toNat) : (xsalsa20Xor inp n nonce key).length = n.toNat :=
  streamXor_length _ _ _ _ h

/-- A successful seal of `n` bytes gives `n` bytes (44_secretbox.md rule R210). -/
theorem secretboxSeal_length {inp out : List Byte} {n : Word} {nonce : Bytes 24} {key : Bytes 32}
    (hlen : inp.length = n.toNat) (h : secretboxSeal inp n nonce key = .ok out) : out.length = n.toNat := by
  have hx : (xsalsa20Xor (some inp) n nonce key).length = n.toNat := xsalsa20Xor_length _ _ _ _ (by simpa using hlen)
  unfold secretboxSeal at h
  split at h
  · cases h
  · next hn =>
    cases h
    simp [hx, padBytes] at hn ⊢
    omega

/-- A successful open of `n` bytes gives `n` bytes (44_secretbox.md rule R210). -/
theorem secretboxOpen_length {inp out : List Byte} {n : Word} {nonce : Bytes 24} {key : Bytes 32}
    (hlen : inp.length = n.toNat) (h : secretboxOpen inp n nonce key = .ok out) : out.length = n.toNat := by
  have hx : (xsalsa20Xor (some inp) n nonce key).length = n.toNat := xsalsa20Xor_length _ _ _ _ (by simpa using hlen)
  unfold secretboxOpen at h
  split at h
  · cases h
  · next hn =>
    dsimp only at h
    split at h
    · cases h
      simp [hx, padBytes] at hn ⊢
      omega
    · cases h

end Sys2Proof.Machine
end

