-- ==== Sys2Proof/Laws/Config.lean ====
section
/-! SUPPORT. The bounds of the parameter `DM_BYTES` (00_scope.md rule R8). -/

namespace Sys2Proof

/-- `64 ≤ DM_BYTES ≤ 2^32`, whatever the implementation. -/
theorem Config.dmBytes_bounds : 64 ≤ Config.dmBytes ∧ Config.dmBytes ≤ 2 ^ 32 := by
  have h := Config.dmBytesAbove64.isLt
  unfold Config.dmBytes
  omega

end Sys2Proof
end

