-- ==== Sys2Proof/Laws/State.lean ====
section
/-!
SUPPORT. One lemma for each field of State under each named update: what the update leaves in it. All are true by rfl
and tagged simp, so that no later proof unfolds a record update.
-/

namespace Sys2Proof.Machine

variable (s : State)

/-! ### setX -/

@[simp] theorem setX_status (v : Vector Word 16) : (s.setX v).status = s.status := rfl
@[simp] theorem setX_src (v : Vector Word 16) : (s.setX v).src = s.src := rfl
@[simp] theorem setX_dst (v : Vector Word 16) : (s.setX v).dst = s.dst := rfl
@[simp] theorem setX_len (v : Vector Word 16) : (s.setX v).len = s.len := rfl
@[simp] theorem setX_key (v : Vector Word 16) : (s.setX v).key = s.key := rfl
@[simp] theorem setX_nonce (v : Vector Word 16) : (s.setX v).nonce = s.nonce := rfl
@[simp] theorem setX_blk (v : Vector Word 16) : (s.setX v).blk = s.blk := rfl
@[simp] theorem setX_tref (v : Vector Word 16) : (s.setX v).tref = s.tref := rfl
@[simp] theorem setX_pk (v : Vector Word 16) : (s.setX v).pk = s.pk := rfl
@[simp] theorem setX_subkey (v : Vector Word 16) : (s.setX v).subkey = s.subkey := rfl
@[simp] theorem setX_x (v : Vector Word 16) : (s.setX v).x = v := rfl
@[simp] theorem setX_ob (v : Vector Word 16) : (s.setX v).ob = s.ob := rfl
@[simp] theorem setX_rReg (v : Vector Word 16) : (s.setX v).rReg = s.rReg := rfl
@[simp] theorem setX_sReg (v : Vector Word 16) : (s.setX v).sReg = s.sReg := rfl
@[simp] theorem setX_tag (v : Vector Word 16) : (s.setX v).tag = s.tag := rfl
@[simp] theorem setX_dm (v : Vector Word 16) : (s.setX v).dm = s.dm := rfl
@[simp] theorem setX_script (v : Vector Word 16) : (s.setX v).script = s.script := rfl
@[simp] theorem setX_reply (v : Vector Word 16) : (s.setX v).reply = s.reply := rfl

/-! ### setOb -/

@[simp] theorem setOb_status (v : Bytes 64) : (s.setOb v).status = s.status := rfl
@[simp] theorem setOb_src (v : Bytes 64) : (s.setOb v).src = s.src := rfl
@[simp] theorem setOb_dst (v : Bytes 64) : (s.setOb v).dst = s.dst := rfl
@[simp] theorem setOb_len (v : Bytes 64) : (s.setOb v).len = s.len := rfl
@[simp] theorem setOb_key (v : Bytes 64) : (s.setOb v).key = s.key := rfl
@[simp] theorem setOb_nonce (v : Bytes 64) : (s.setOb v).nonce = s.nonce := rfl
@[simp] theorem setOb_blk (v : Bytes 64) : (s.setOb v).blk = s.blk := rfl
@[simp] theorem setOb_tref (v : Bytes 64) : (s.setOb v).tref = s.tref := rfl
@[simp] theorem setOb_pk (v : Bytes 64) : (s.setOb v).pk = s.pk := rfl
@[simp] theorem setOb_subkey (v : Bytes 64) : (s.setOb v).subkey = s.subkey := rfl
@[simp] theorem setOb_x (v : Bytes 64) : (s.setOb v).x = s.x := rfl
@[simp] theorem setOb_ob (v : Bytes 64) : (s.setOb v).ob = v := rfl
@[simp] theorem setOb_rReg (v : Bytes 64) : (s.setOb v).rReg = s.rReg := rfl
@[simp] theorem setOb_sReg (v : Bytes 64) : (s.setOb v).sReg = s.sReg := rfl
@[simp] theorem setOb_tag (v : Bytes 64) : (s.setOb v).tag = s.tag := rfl
@[simp] theorem setOb_dm (v : Bytes 64) : (s.setOb v).dm = s.dm := rfl
@[simp] theorem setOb_script (v : Bytes 64) : (s.setOb v).script = s.script := rfl
@[simp] theorem setOb_reply (v : Bytes 64) : (s.setOb v).reply = s.reply := rfl

/-! ### setSubkey -/

@[simp] theorem setSubkey_status (v : Bytes 32) : (s.setSubkey v).status = s.status := rfl
@[simp] theorem setSubkey_src (v : Bytes 32) : (s.setSubkey v).src = s.src := rfl
@[simp] theorem setSubkey_dst (v : Bytes 32) : (s.setSubkey v).dst = s.dst := rfl
@[simp] theorem setSubkey_len (v : Bytes 32) : (s.setSubkey v).len = s.len := rfl
@[simp] theorem setSubkey_key (v : Bytes 32) : (s.setSubkey v).key = s.key := rfl
@[simp] theorem setSubkey_nonce (v : Bytes 32) : (s.setSubkey v).nonce = s.nonce := rfl
@[simp] theorem setSubkey_blk (v : Bytes 32) : (s.setSubkey v).blk = s.blk := rfl
@[simp] theorem setSubkey_tref (v : Bytes 32) : (s.setSubkey v).tref = s.tref := rfl
@[simp] theorem setSubkey_pk (v : Bytes 32) : (s.setSubkey v).pk = s.pk := rfl
@[simp] theorem setSubkey_subkey (v : Bytes 32) : (s.setSubkey v).subkey = v := rfl
@[simp] theorem setSubkey_x (v : Bytes 32) : (s.setSubkey v).x = s.x := rfl
@[simp] theorem setSubkey_ob (v : Bytes 32) : (s.setSubkey v).ob = s.ob := rfl
@[simp] theorem setSubkey_rReg (v : Bytes 32) : (s.setSubkey v).rReg = s.rReg := rfl
@[simp] theorem setSubkey_sReg (v : Bytes 32) : (s.setSubkey v).sReg = s.sReg := rfl
@[simp] theorem setSubkey_tag (v : Bytes 32) : (s.setSubkey v).tag = s.tag := rfl
@[simp] theorem setSubkey_dm (v : Bytes 32) : (s.setSubkey v).dm = s.dm := rfl
@[simp] theorem setSubkey_script (v : Bytes 32) : (s.setSubkey v).script = s.script := rfl
@[simp] theorem setSubkey_reply (v : Bytes 32) : (s.setSubkey v).reply = s.reply := rfl

/-! ### setMacKey -/

@[simp] theorem setMacKey_status (r m : Bytes 16) : (s.setMacKey r m).status = s.status := rfl
@[simp] theorem setMacKey_src (r m : Bytes 16) : (s.setMacKey r m).src = s.src := rfl
@[simp] theorem setMacKey_dst (r m : Bytes 16) : (s.setMacKey r m).dst = s.dst := rfl
@[simp] theorem setMacKey_len (r m : Bytes 16) : (s.setMacKey r m).len = s.len := rfl
@[simp] theorem setMacKey_key (r m : Bytes 16) : (s.setMacKey r m).key = s.key := rfl
@[simp] theorem setMacKey_nonce (r m : Bytes 16) : (s.setMacKey r m).nonce = s.nonce := rfl
@[simp] theorem setMacKey_blk (r m : Bytes 16) : (s.setMacKey r m).blk = s.blk := rfl
@[simp] theorem setMacKey_tref (r m : Bytes 16) : (s.setMacKey r m).tref = s.tref := rfl
@[simp] theorem setMacKey_pk (r m : Bytes 16) : (s.setMacKey r m).pk = s.pk := rfl
@[simp] theorem setMacKey_subkey (r m : Bytes 16) : (s.setMacKey r m).subkey = s.subkey := rfl
@[simp] theorem setMacKey_x (r m : Bytes 16) : (s.setMacKey r m).x = s.x := rfl
@[simp] theorem setMacKey_ob (r m : Bytes 16) : (s.setMacKey r m).ob = s.ob := rfl
@[simp] theorem setMacKey_rReg (r m : Bytes 16) : (s.setMacKey r m).rReg = r := rfl
@[simp] theorem setMacKey_sReg (r m : Bytes 16) : (s.setMacKey r m).sReg = m := rfl
@[simp] theorem setMacKey_tag (r m : Bytes 16) : (s.setMacKey r m).tag = s.tag := rfl
@[simp] theorem setMacKey_dm (r m : Bytes 16) : (s.setMacKey r m).dm = s.dm := rfl
@[simp] theorem setMacKey_script (r m : Bytes 16) : (s.setMacKey r m).script = s.script := rfl
@[simp] theorem setMacKey_reply (r m : Bytes 16) : (s.setMacKey r m).reply = s.reply := rfl

/-! ### setTag -/

@[simp] theorem setTag_status (v : Bytes 16) : (s.setTag v).status = s.status := rfl
@[simp] theorem setTag_src (v : Bytes 16) : (s.setTag v).src = s.src := rfl
@[simp] theorem setTag_dst (v : Bytes 16) : (s.setTag v).dst = s.dst := rfl
@[simp] theorem setTag_len (v : Bytes 16) : (s.setTag v).len = s.len := rfl
@[simp] theorem setTag_key (v : Bytes 16) : (s.setTag v).key = s.key := rfl
@[simp] theorem setTag_nonce (v : Bytes 16) : (s.setTag v).nonce = s.nonce := rfl
@[simp] theorem setTag_blk (v : Bytes 16) : (s.setTag v).blk = s.blk := rfl
@[simp] theorem setTag_tref (v : Bytes 16) : (s.setTag v).tref = s.tref := rfl
@[simp] theorem setTag_pk (v : Bytes 16) : (s.setTag v).pk = s.pk := rfl
@[simp] theorem setTag_subkey (v : Bytes 16) : (s.setTag v).subkey = s.subkey := rfl
@[simp] theorem setTag_x (v : Bytes 16) : (s.setTag v).x = s.x := rfl
@[simp] theorem setTag_ob (v : Bytes 16) : (s.setTag v).ob = s.ob := rfl
@[simp] theorem setTag_rReg (v : Bytes 16) : (s.setTag v).rReg = s.rReg := rfl
@[simp] theorem setTag_sReg (v : Bytes 16) : (s.setTag v).sReg = s.sReg := rfl
@[simp] theorem setTag_tag (v : Bytes 16) : (s.setTag v).tag = v := rfl
@[simp] theorem setTag_dm (v : Bytes 16) : (s.setTag v).dm = s.dm := rfl
@[simp] theorem setTag_script (v : Bytes 16) : (s.setTag v).script = s.script := rfl
@[simp] theorem setTag_reply (v : Bytes 16) : (s.setTag v).reply = s.reply := rfl

/-! ### memWrite -/

@[simp] theorem memWrite_status (a : Nat) (v : List Byte) : (s.memWrite a v).status = s.status := rfl
@[simp] theorem memWrite_src (a : Nat) (v : List Byte) : (s.memWrite a v).src = s.src := rfl
@[simp] theorem memWrite_dst (a : Nat) (v : List Byte) : (s.memWrite a v).dst = s.dst := rfl
@[simp] theorem memWrite_len (a : Nat) (v : List Byte) : (s.memWrite a v).len = s.len := rfl
@[simp] theorem memWrite_key (a : Nat) (v : List Byte) : (s.memWrite a v).key = s.key := rfl
@[simp] theorem memWrite_nonce (a : Nat) (v : List Byte) : (s.memWrite a v).nonce = s.nonce := rfl
@[simp] theorem memWrite_blk (a : Nat) (v : List Byte) : (s.memWrite a v).blk = s.blk := rfl
@[simp] theorem memWrite_tref (a : Nat) (v : List Byte) : (s.memWrite a v).tref = s.tref := rfl
@[simp] theorem memWrite_pk (a : Nat) (v : List Byte) : (s.memWrite a v).pk = s.pk := rfl
@[simp] theorem memWrite_subkey (a : Nat) (v : List Byte) : (s.memWrite a v).subkey = s.subkey := rfl
@[simp] theorem memWrite_x (a : Nat) (v : List Byte) : (s.memWrite a v).x = s.x := rfl
@[simp] theorem memWrite_ob (a : Nat) (v : List Byte) : (s.memWrite a v).ob = s.ob := rfl
@[simp] theorem memWrite_rReg (a : Nat) (v : List Byte) : (s.memWrite a v).rReg = s.rReg := rfl
@[simp] theorem memWrite_sReg (a : Nat) (v : List Byte) : (s.memWrite a v).sReg = s.sReg := rfl
@[simp] theorem memWrite_tag (a : Nat) (v : List Byte) : (s.memWrite a v).tag = s.tag := rfl
@[simp] theorem memWrite_dm (a : Nat) (v : List Byte) : (s.memWrite a v).dm = s.dm.writeBytes a v := rfl
@[simp] theorem memWrite_script (a : Nat) (v : List Byte) : (s.memWrite a v).script = s.script := rfl
@[simp] theorem memWrite_reply (a : Nat) (v : List Byte) : (s.memWrite a v).reply = s.reply := rfl

/-! ### finish -/

@[simp] theorem finish_status (op : Byte) (code : Code) : (s.finish op code).status = completedStatus s.status code op := rfl
@[simp] theorem finish_src (op : Byte) (code : Code) : (s.finish op code).src = s.src := rfl
@[simp] theorem finish_dst (op : Byte) (code : Code) : (s.finish op code).dst = s.dst := rfl
@[simp] theorem finish_len (op : Byte) (code : Code) : (s.finish op code).len = s.len := rfl
@[simp] theorem finish_key (op : Byte) (code : Code) : (s.finish op code).key = s.key := rfl
@[simp] theorem finish_nonce (op : Byte) (code : Code) : (s.finish op code).nonce = s.nonce := rfl
@[simp] theorem finish_blk (op : Byte) (code : Code) : (s.finish op code).blk = s.blk := rfl
@[simp] theorem finish_tref (op : Byte) (code : Code) : (s.finish op code).tref = s.tref := rfl
@[simp] theorem finish_pk (op : Byte) (code : Code) : (s.finish op code).pk = s.pk := rfl
@[simp] theorem finish_subkey (op : Byte) (code : Code) : (s.finish op code).subkey = s.subkey := rfl
@[simp] theorem finish_x (op : Byte) (code : Code) : (s.finish op code).x = s.x := rfl
@[simp] theorem finish_ob (op : Byte) (code : Code) : (s.finish op code).ob = s.ob := rfl
@[simp] theorem finish_rReg (op : Byte) (code : Code) : (s.finish op code).rReg = s.rReg := rfl
@[simp] theorem finish_sReg (op : Byte) (code : Code) : (s.finish op code).sReg = s.sReg := rfl
@[simp] theorem finish_tag (op : Byte) (code : Code) : (s.finish op code).tag = s.tag := rfl
@[simp] theorem finish_dm (op : Byte) (code : Code) : (s.finish op code).dm = s.dm := rfl
@[simp] theorem finish_script (op : Byte) (code : Code) : (s.finish op code).script = s.script := rfl
@[simp] theorem finish_reply (op : Byte) (code : Code) : (s.finish op code).reply = s.reply := rfl

/-! ### takeAccess -/

@[simp] theorem takeAccess_status (rest : List HostAccess) : (s.takeAccess rest).status = s.status := rfl
@[simp] theorem takeAccess_src (rest : List HostAccess) : (s.takeAccess rest).src = s.src := rfl
@[simp] theorem takeAccess_dst (rest : List HostAccess) : (s.takeAccess rest).dst = s.dst := rfl
@[simp] theorem takeAccess_len (rest : List HostAccess) : (s.takeAccess rest).len = s.len := rfl
@[simp] theorem takeAccess_key (rest : List HostAccess) : (s.takeAccess rest).key = s.key := rfl
@[simp] theorem takeAccess_nonce (rest : List HostAccess) : (s.takeAccess rest).nonce = s.nonce := rfl
@[simp] theorem takeAccess_blk (rest : List HostAccess) : (s.takeAccess rest).blk = s.blk := rfl
@[simp] theorem takeAccess_tref (rest : List HostAccess) : (s.takeAccess rest).tref = s.tref := rfl
@[simp] theorem takeAccess_pk (rest : List HostAccess) : (s.takeAccess rest).pk = s.pk := rfl
@[simp] theorem takeAccess_subkey (rest : List HostAccess) : (s.takeAccess rest).subkey = s.subkey := rfl
@[simp] theorem takeAccess_x (rest : List HostAccess) : (s.takeAccess rest).x = s.x := rfl
@[simp] theorem takeAccess_ob (rest : List HostAccess) : (s.takeAccess rest).ob = s.ob := rfl
@[simp] theorem takeAccess_rReg (rest : List HostAccess) : (s.takeAccess rest).rReg = s.rReg := rfl
@[simp] theorem takeAccess_sReg (rest : List HostAccess) : (s.takeAccess rest).sReg = s.sReg := rfl
@[simp] theorem takeAccess_tag (rest : List HostAccess) : (s.takeAccess rest).tag = s.tag := rfl
@[simp] theorem takeAccess_dm (rest : List HostAccess) : (s.takeAccess rest).dm = s.dm := rfl
@[simp] theorem takeAccess_script (rest : List HostAccess) : (s.takeAccess rest).script = rest := rfl
@[simp] theorem takeAccess_reply (rest : List HostAccess) : (s.takeAccess rest).reply = .nothing := rfl

/-! ### answer -/

@[simp] theorem answer_status (r : Reply) : (s.answer r).status = s.status := rfl
@[simp] theorem answer_src (r : Reply) : (s.answer r).src = s.src := rfl
@[simp] theorem answer_dst (r : Reply) : (s.answer r).dst = s.dst := rfl
@[simp] theorem answer_len (r : Reply) : (s.answer r).len = s.len := rfl
@[simp] theorem answer_key (r : Reply) : (s.answer r).key = s.key := rfl
@[simp] theorem answer_nonce (r : Reply) : (s.answer r).nonce = s.nonce := rfl
@[simp] theorem answer_blk (r : Reply) : (s.answer r).blk = s.blk := rfl
@[simp] theorem answer_tref (r : Reply) : (s.answer r).tref = s.tref := rfl
@[simp] theorem answer_pk (r : Reply) : (s.answer r).pk = s.pk := rfl
@[simp] theorem answer_subkey (r : Reply) : (s.answer r).subkey = s.subkey := rfl
@[simp] theorem answer_x (r : Reply) : (s.answer r).x = s.x := rfl
@[simp] theorem answer_ob (r : Reply) : (s.answer r).ob = s.ob := rfl
@[simp] theorem answer_rReg (r : Reply) : (s.answer r).rReg = s.rReg := rfl
@[simp] theorem answer_sReg (r : Reply) : (s.answer r).sReg = s.sReg := rfl
@[simp] theorem answer_tag (r : Reply) : (s.answer r).tag = s.tag := rfl
@[simp] theorem answer_dm (r : Reply) : (s.answer r).dm = s.dm := rfl
@[simp] theorem answer_script (r : Reply) : (s.answer r).script = s.script := rfl
@[simp] theorem answer_reply (r : Reply) : (s.answer r).reply = r := rfl

/-! ### resetRegs -/

@[simp] theorem resetRegs_status : s.resetRegs.status = 0 := rfl
@[simp] theorem resetRegs_src : s.resetRegs.src = 0 := rfl
@[simp] theorem resetRegs_dst : s.resetRegs.dst = 0 := rfl
@[simp] theorem resetRegs_len : s.resetRegs.len = 0 := rfl
@[simp] theorem resetRegs_key : s.resetRegs.key = zeroBytes 32 := rfl
@[simp] theorem resetRegs_nonce : s.resetRegs.nonce = zeroBytes 24 := rfl
@[simp] theorem resetRegs_blk : s.resetRegs.blk = zeroBytes 16 := rfl
@[simp] theorem resetRegs_tref : s.resetRegs.tref = zeroBytes 16 := rfl
@[simp] theorem resetRegs_pk : s.resetRegs.pk = zeroBytes 32 := rfl
@[simp] theorem resetRegs_subkey : s.resetRegs.subkey = zeroBytes 32 := rfl
@[simp] theorem resetRegs_x : s.resetRegs.x = Vector.replicate 16 0 := rfl
@[simp] theorem resetRegs_ob : s.resetRegs.ob = zeroBytes 64 := rfl
@[simp] theorem resetRegs_rReg : s.resetRegs.rReg = zeroBytes 16 := rfl
@[simp] theorem resetRegs_sReg : s.resetRegs.sReg = zeroBytes 16 := rfl
@[simp] theorem resetRegs_tag : s.resetRegs.tag = zeroBytes 16 := rfl
@[simp] theorem resetRegs_dm : s.resetRegs.dm = s.dm := rfl
@[simp] theorem resetRegs_script : s.resetRegs.script = s.script := rfl
@[simp] theorem resetRegs_reply : s.resetRegs.reply = .nothing := rfl

/-! ### The two updates of a command do not disturb each other -/

theorem finish_takeAccess (op : Byte) (code : Code) (rest : List HostAccess) :
    (s.finish op code).takeAccess rest = (s.takeAccess rest).finish op code := rfl

end Sys2Proof.Machine
end

