-- ==== Sys2Proof/Laws/Ops.lean ====
section
/-!
SUPPORT. The shared operations, once each: what `complete` can answer, when a check raises and with what code, and
what stands where in the register map.
-/

namespace Sys2Proof.Machine

/-! ### raise -/

@[simp] theorem ok_bind {α β : Type} (a : α) (f : α → Except Code β) : (Except.ok a >>= f) = f a := rfl

@[simp] theorem error_bind {α β : Type} (c : Code) (f : α → Except Code β) :
    ((Except.error c : Except Code α) >>= f) = Except.error c := rfl

@[simp] theorem pure_eq_ok {α : Type} (a : α) : (pure a : Except Code α) = Except.ok a := rfl

@[simp] theorem raiseIf_true (c : Code) : raiseIf true c = .error c := rfl

@[simp] theorem raiseIf_false (c : Code) : raiseIf false c = .ok () := rfl

/-- A raised code ends the rest; otherwise the rest runs. -/
theorem raiseIf_bind {β : Type} (b : Bool) (c : Code) (f : Unit → Except Code β) :
    (raiseIf b c >>= f) = if b then .error c else f () := by
  cases b <;> rfl

/-! ### The completion of a command -/

@[simp] theorem complete_ok (op : Byte) (s t : State) : complete op s (.ok t) = .next (t.finish op .ok) := rfl

@[simp] theorem complete_error (op : Byte) (s : State) (c : Code) :
    complete op s (.error c) = .next (s.finish op c) := rfl

/-- Everything `complete` can answer: the body's state with `OK`, or the state before with the code raised. -/
theorem complete_cases {op : Byte} {s t : State} {body : Except Code State} (h : complete op s body = .next t) :
    (∃ u, body = .ok u ∧ t = u.finish op .ok) ∨ (∃ c, body = .error c ∧ t = s.finish op c) := by
  cases body with
  | ok u => exact .inl ⟨u, rfl, by simpa using h.symm⟩
  | error c => exact .inr ⟨c, rfl, by simpa using h.symm⟩

/-- A completion is always a next state: no command stops the machine. -/
theorem complete_is_next (op : Byte) (s : State) (body : Except Code State) : ∃ t, complete op s body = .next t := by
  cases body <;> exact ⟨_, rfl⟩

/-! ### The checks -/

/-- The checks of `SXOR` and `XSXOR`, as one choice. -/
theorem streamChecks_eq (s : State) (ni : Bool) :
    s.streamChecks ni =
      if !ni && !s.inputFits then .error .eRange
      else if !s.outputFits then .error .eRange
      else if !ni && s.viewsClash then .error .eOvlp
      else .ok () := by
  unfold State.streamChecks
  simp only [raiseIf_bind]
  rfl

/-- The checks of `SEAL` and `OPEN`, as one choice. -/
theorem boxChecks_eq (s : State) :
    s.boxChecks =
      if decide (s.len.toNat < 32) then .error .eShort
      else if !s.inputFits || !s.outputFits then .error .eRange
      else if s.viewsClash then .error .eOvlp
      else .ok () := by
  unfold State.boxChecks
  simp only [raiseIf_bind]
  rfl

theorem inputFits_iff (s : State) : s.inputFits = true ↔ s.src.toNat + s.len.toNat ≤ s.dm.size := by
  simp [State.inputFits, dmSpanOk]

theorem outputFits_iff (s : State) : s.outputFits = true ↔ s.dst.toNat + s.len.toNat ≤ s.dm.size := by
  simp [State.outputFits, dmSpanOk]

/-- The views clash exactly when they overlap partly (20_memory.md rule R56). -/
theorem viewsClash_iff (s : State) :
    s.viewsClash = true ↔ 0 < s.len.toNat ∧ s.src ≠ s.dst ∧ s.src.toNat < s.dst.toNat + s.len.toNat
      ∧ s.dst.toNat < s.src.toNat + s.len.toNat := by
  simp [State.viewsClash, and_assoc]

@[simp] theorem inputView_length (s : State) : s.inputView.length = s.len.toNat := by
  unfold State.inputView
  generalize s.src.toNat = a
  generalize s.len.toNat = n
  induction n generalizing a with
  | zero => rfl
  | succ n ih => simp [Memory.readBytes, ih]

/-! ### The register map -/

/-- What stands at an offset, read backwards: each place of the map stands at its offset, or, for the words of the
byte-array registers and of `X`, at its base plus four times its index (10_state.md rule R35). -/
def RegWord.offsetOf : RegWord → Option Nat
  | .cmd => some 0x000
  | .status => some 0x004
  | .src => some 0x008
  | .dst => some 0x00C
  | .len => some 0x010
  | .key j => some (0x020 + 4 * j.val)
  | .nonce j => some (0x040 + 4 * j.val)
  | .blk j => some (0x060 + 4 * j.val)
  | .tref j => some (0x070 + 4 * j.val)
  | .pk j => some (0x080 + 4 * j.val)
  | .subkey j => some (0x0A0 + 4 * j.val)
  | .x i => some (0x0C0 + 4 * i.val)
  | .ob j => some (0x100 + 4 * j.val)
  | .r j => some (0x140 + 4 * j.val)
  | .s j => some (0x150 + 4 * j.val)
  | .tag j => some (0x160 + 4 * j.val)
  | .reserved => none

/-- From 0x170 on every offset is reserved (10_state.md rule R35). -/
theorem regAt_above {off : Nat} (h : 0x170 ≤ off) : regAt off = .reserved := by
  unfold regAt
  repeat rw [if_neg (by omega)]
  repeat rw [dif_neg (by omega)]

/-- An aligned offset whose place is not reserved is that place's offset. -/
theorem regAt_offset {off n : Nat} (hal : off % 4 = 0) (hn : (regAt off).offsetOf = some n) : off = n := by
  by_cases h : off < 0x170
  · obtain ⟨k, rfl⟩ : ∃ k, off = 4 * k := ⟨off / 4, by omega⟩
    have hk : k < 92 := by omega
    clear h hal
    interval_cases k <;> first | exact Option.some.inj hn | cases hn
  · rw [regAt_above (by omega)] at hn
    cases hn

/-- A place of the map is found at its offset. -/
theorem regAt_of_offset {p : RegWord} {n : Nat} (h : p.offsetOf = some n) : regAt n = p := by
  cases p <;> simp only [RegWord.offsetOf, Option.some.injEq, reduceCtorEq] at h
  all_goals subst h
  case cmd => rfl
  case status => rfl
  case src => rfl
  case dst => rfl
  case len => rfl
  all_goals next j => fin_cases j <;> rfl

end Sys2Proof.Machine
end

