-- ==== Sys2Proof/Laws/Exec.lean ====
section
/-!
SUPPORT. Every command as a completion of its body: what it leaves, or the code it raises. Later proofs about all
commands go by the bodies and unfold no meaning.
-/

namespace Sys2Proof.Machine

/-- The body of each command: the state it leaves, less the bookkeeping of `STATUS`, or the code it raises. -/
def commandBody : Instr → State → Except Code State
  | .scinit ks, s => .ok (s.setX (buildState s.blk (s.selectedKey ks)))
  | .scperm, s => .ok (s.setX (perm20 s.x))
  | .ksblk ks, s => .ok (s.setOb (coreStream s.blk (s.selectedKey ks)))
  | .xsubkey, s => .ok (s.setSubkey (deriveSubkey s.nonce s.key))
  | .sxor ks ni, s =>
    s.streamChecks ni >>= fun _ =>
      .ok (s.writeOutput (streamXor (s.streamInput ni) s.len (streamNonce s.nonce) (s.selectedKey ks)))
  | .xsxor ni, s =>
    s.streamChecks ni >>= fun _ => .ok (s.writeOutput (xsalsa20Xor (s.streamInput ni) s.len s.nonce s.key))
  | .pclamp, s => .ok (s.setMacKey (clamp (keyHalfR s.pk)) (keyHalfS s.pk))
  | .pmac, s =>
    raiseIf (!s.inputFits) .eRange >>= fun _ =>
      .ok ((s.setMacKey (clamp (keyHalfR s.pk)) (keyHalfS s.pk)).setTag (poly1305 s.inputView s.pk))
  | .tvfy, s => raiseIf (!verify16 s.tag s.tref) .eAuth >>= fun _ => .ok s
  | .sealBox, s =>
    s.boxChecks >>= fun _ => secretboxSeal s.inputView s.len s.nonce s.key >>= fun out => .ok (s.writeOutput out)
  | .openBox, s =>
    s.boxChecks >>= fun _ => secretboxOpen s.inputView s.len s.nonce s.key >>= fun out => .ok (s.writeOutput out)

/-- A command is the completion of its body (60_exceptions.md rule R248). -/
theorem exec_eq_complete (i : Instr) (s : State) : exec i s = complete i.opcode s (commandBody i s) := by
  cases i <;> rfl

/-- Everything a command can answer: its body's state with `OK`, or the state before with the code raised. -/
theorem exec_cases {i : Instr} {s t : State} (h : exec i s = .next t) :
    (∃ u, commandBody i s = .ok u ∧ t = u.finish i.opcode .ok)
      ∨ (∃ c, commandBody i s = .error c ∧ t = s.finish i.opcode c) :=
  complete_cases ((exec_eq_complete i s).symm.trans h)

/-- The checks of `SXOR` and `XSXOR` raise no code but `E_RANGE` and `E_OVLP`. -/
theorem streamChecks_error {s : State} {ni : Bool} {c : Code} (h : s.streamChecks ni = .error c) :
    c = .eRange ∨ c = .eOvlp := by
  rw [streamChecks_eq] at h
  split_ifs at h <;> cases h <;> simp

/-- The checks of `SEAL` and `OPEN` raise no code but `E_SHORT`, `E_RANGE` and `E_OVLP`. -/
theorem boxChecks_error {s : State} {c : Code} (h : s.boxChecks = .error c) :
    c = .eShort ∨ c = .eRange ∨ c = .eOvlp := by
  rw [boxChecks_eq] at h
  split_ifs at h <;> cases h <;> simp

/-- What the passed checks of `SXOR` and `XSXOR` say. -/
theorem streamChecks_ok {s : State} {ni : Bool} (h : s.streamChecks ni = .ok ()) :
    (ni = false → s.inputFits = true ∧ s.viewsClash = false) ∧ s.outputFits = true := by
  rw [streamChecks_eq] at h
  split_ifs at h with h1 h2 h3
  refine ⟨?_, by simpa using h2⟩
  rintro rfl
  exact ⟨by simpa using h1, by simpa using h3⟩

/-- What the passed checks of `SEAL` and `OPEN` say. -/
theorem boxChecks_ok {s : State} (h : s.boxChecks = .ok ()) :
    32 ≤ s.len.toNat ∧ s.inputFits = true ∧ s.outputFits = true ∧ s.viewsClash = false := by
  rw [boxChecks_eq] at h
  split_ifs at h with h1 h2 h3
  refine ⟨by simpa using h1, ?_, ?_, by simpa using h3⟩ <;>
    (cases hi : s.inputFits <;> cases ho : s.outputFits <;> simp [hi, ho] at h2 ⊢)

/-- The input of a stream command has as many bytes as `LEN` says. -/
theorem streamInput_length (s : State) (ni : Bool) : ∀ m ∈ s.streamInput ni, m.length = s.len.toNat := by
  intro m hm
  cases ni <;> simp [State.streamInput] at hm
  simp [← hm]

/-- A body that succeeds leaves `DM` as it was, or, for a command with an output view, writes `LEN` bytes to the
output view, which fits in `DM`. -/
theorem commandBody_dm {i : Instr} {s u : State} (h : commandBody i s = .ok u) :
    u.dm = s.dm ∨
      (s.dst.toNat + s.len.toNat ≤ s.dm.size
        ∧ ∃ out : List Byte, out.length = s.len.toNat ∧ u.dm = s.dm.writeBytes s.dst.toNat out) := by
  cases i
  case scinit => cases h; exact .inl rfl
  case scperm => cases h; exact .inl rfl
  case ksblk => cases h; exact .inl rfl
  case xsubkey => cases h; exact .inl rfl
  case pclamp => cases h; exact .inl rfl
  case pmac =>
    simp only [commandBody, raiseIf_bind] at h
    split at h <;> cases h
    exact .inl rfl
  case tvfy =>
    simp only [commandBody, raiseIf_bind] at h
    split at h <;> cases h
    exact .inl rfl
  case sxor ks ni =>
    cases hc : s.streamChecks ni <;> simp only [commandBody, hc, ok_bind, error_bind, reduceCtorEq] at h
    cases h
    exact .inr ⟨(outputFits_iff s).mp (streamChecks_ok hc).2, _, streamXor_length _ _ _ _ (streamInput_length s ni), rfl⟩
  case xsxor ni =>
    cases hc : s.streamChecks ni <;> simp only [commandBody, hc, ok_bind, error_bind, reduceCtorEq] at h
    cases h
    exact .inr ⟨(outputFits_iff s).mp (streamChecks_ok hc).2, _, xsalsa20Xor_length _ _ _ _ (streamInput_length s ni), rfl⟩
  case sealBox =>
    cases hc : s.boxChecks <;> simp only [commandBody, hc, ok_bind, error_bind, reduceCtorEq] at h
    cases ho : secretboxSeal s.inputView s.len s.nonce s.key <;> simp only [ho, ok_bind, error_bind, reduceCtorEq] at h
    cases h
    exact .inr ⟨(outputFits_iff s).mp (boxChecks_ok hc).2.2.1, _, secretboxSeal_length (by simp) ho, rfl⟩
  case openBox =>
    cases hc : s.boxChecks <;> simp only [commandBody, hc, ok_bind, error_bind, reduceCtorEq] at h
    cases ho : secretboxOpen s.inputView s.len s.nonce s.key <;> simp only [ho, ok_bind, error_bind, reduceCtorEq] at h
    cases h
    exact .inr ⟨(outputFits_iff s).mp (boxChecks_ok hc).2.2.1, _, secretboxOpen_length (by simp) ho, rfl⟩

end Sys2Proof.Machine
end

