-- ==== Sys2Proof/Laws/Memory.lean ====
section
/-!
SUPPORT. The laws of the data memory: what a byte reads as after a write, and that every memory operation keeps the
canonical form.
-/

namespace Sys2Proof.Machine

/-! ### Cells -/

theorem findCell_dropCell_same (cs : List Host.Cell) (a : Nat) : findCell (dropCell cs a) a = none := by
  induction cs with
  | nil => rfl
  | cons c cs ih =>
    by_cases h : c.1 = a
    · simpa [dropCell, h] using ih
    · simpa [dropCell, h, findCell] using ih

theorem findCell_dropCell_other (cs : List Host.Cell) {a a' : Nat} (hne : a' ≠ a) :
    findCell (dropCell cs a) a' = findCell cs a' := by
  induction cs with
  | nil => rfl
  | cons c cs ih =>
    by_cases h : c.1 = a
    · have hc : c.1 ≠ a' := fun e => hne (e.symm.trans h)
      simpa [dropCell, findCell, h, hc, hne.symm] using ih
    · by_cases h' : c.1 = a'
      · simp [dropCell, findCell, h', hne]
      · simpa [dropCell, findCell, h, h'] using ih

theorem findCell_placeCell_same (cs : List Host.Cell) (a : Nat) (b : Byte) (hnone : findCell cs a = none) :
    findCell (placeCell cs a b) a = some b := by
  induction cs with
  | nil => simp [placeCell, findCell]
  | cons c cs ih =>
    by_cases hc : c.1 = a
    · simp [findCell, hc] at hnone
    · simp only [findCell, hc, if_false] at hnone
      unfold placeCell
      split
      · simp [findCell]
      · simp [findCell, hc, ih hnone]

theorem findCell_placeCell_other (cs : List Host.Cell) {a a' : Nat} (b : Byte) (hne : a' ≠ a) :
    findCell (placeCell cs a b) a' = findCell cs a' := by
  induction cs with
  | nil => simp [placeCell, findCell, hne.symm]
  | cons c cs ih =>
    unfold placeCell
    split
    · simp [findCell, hne.symm]
    · simp [findCell, ih]

/-! ### One byte -/

@[simp] theorem writeByte_size (m : Memory) (a : Nat) (b : Byte) : (m.writeByte a b).size = m.size := rfl

@[simp] theorem readByte_writeByte_same (m : Memory) (a : Nat) (b : Byte) : (m.writeByte a b).readByte a = b := by
  unfold Memory.readByte Memory.writeByte
  split
  · next h => simp [findCell_dropCell_same, h]
  · simp [findCell_placeCell_same _ _ _ (findCell_dropCell_same _ _)]

theorem readByte_writeByte_other (m : Memory) {a a' : Nat} (b : Byte) (hne : a' ≠ a) :
    (m.writeByte a b).readByte a' = m.readByte a' := by
  unfold Memory.readByte Memory.writeByte
  split
  · simp [findCell_dropCell_other _ hne]
  · simp [findCell_placeCell_other _ _ hne, findCell_dropCell_other _ hne]

/-! ### Many bytes -/

@[simp] theorem writeBytes_size (m : Memory) (a : Nat) (bs : List Byte) : (m.writeBytes a bs).size = m.size := by
  induction bs generalizing m a with
  | nil => rfl
  | cons b bs ih => simp [Memory.writeBytes, ih]

@[simp] theorem readBytes_length (m : Memory) (a n : Nat) : (m.readBytes a n).length = n := by
  induction n generalizing a with
  | zero => rfl
  | succ n ih => simp [Memory.readBytes, ih]

/-- Byte `i` of a read is the byte at address `addr + i` (20_memory.md rule R65). -/
theorem readBytes_getElem (m : Memory) (a n i : Nat) (h : i < (m.readBytes a n).length) :
    (m.readBytes a n)[i] = m.readByte (a + i) := by
  induction n generalizing a i with
  | zero => simp at h
  | succ n ih =>
    cases i with
    | zero => rfl
    | succ i =>
      simp only [Memory.readBytes, List.getElem_cons_succ]
      rw [ih]
      congr 1
      omega

/-- Outside the bytes written, a memory reads as before. -/
theorem readByte_writeBytes_outside (m : Memory) (addr : Nat) (bs : List Byte) (a : Nat)
    (h : a < addr ∨ addr + bs.length ≤ a) : (m.writeBytes addr bs).readByte a = m.readByte a := by
  induction bs generalizing m addr with
  | nil => rfl
  | cons b bs ih =>
    simp only [List.length_cons] at h
    simp only [Memory.writeBytes]
    rw [ih _ _ (by omega), readByte_writeByte_other _ _ (by omega)]

/-- Inside the bytes written, a memory reads as what was written (20_memory.md rule R65). -/
theorem readByte_writeBytes_inside (m : Memory) (addr : Nat) (bs : List Byte) (i : Nat) (h : i < bs.length) :
    (m.writeBytes addr bs).readByte (addr + i) = bs[i] := by
  induction bs generalizing m addr i with
  | nil => simp at h
  | cons b bs ih =>
    simp only [Memory.writeBytes]
    cases i with
    | zero =>
      rw [readByte_writeBytes_outside _ _ _ _ (by omega)]
      simp
    | succ i =>
      have := ih (m.writeByte addr b) (addr + 1) i (by simpa using h)
      rw [show addr + (i + 1) = addr + 1 + i by omega, this]
      simp

/-- A read of the bytes just written gives them back. -/
theorem readBytes_writeBytes_same (m : Memory) (addr : Nat) (bs : List Byte) :
    (m.writeBytes addr bs).readBytes addr bs.length = bs := by
  apply List.ext_getElem
  · simp
  · intro i h1 h2
    rw [readBytes_getElem, readByte_writeBytes_inside _ _ _ _ h2]

/-- A read of bytes that a write did not touch gives what it gave before. -/
theorem readBytes_writeBytes_disjoint (m : Memory) (addr : Nat) (bs : List Byte) (a n : Nat)
    (h : a + n ≤ addr ∨ addr + bs.length ≤ a) : (m.writeBytes addr bs).readBytes a n = m.readBytes a n := by
  apply List.ext_getElem
  · simp
  · intro i h1 h2
    simp only [readBytes_length] at h1
    rw [readBytes_getElem, readBytes_getElem, readByte_writeBytes_outside _ _ _ _ (by omega)]

/-! ### The canonical form -/

/-- Every address of the list is at least `lo`, and the addresses rise strictly. -/
def cellsAbove (lo : Nat) : List Host.Cell → Prop
  | [] => True
  | c :: cs => lo ≤ c.1 ∧ cellsAbove (c.1 + 1) cs

theorem cellsAbove_mono {lo lo' : Nat} (h : lo' ≤ lo) {cs : List Host.Cell} (hc : cellsAbove lo cs) :
    cellsAbove lo' cs := by
  cases cs with
  | nil => trivial
  | cons c cs => exact ⟨le_trans h hc.1, hc.2⟩

theorem cellsRise_cons_iff (c : Host.Cell) (cs : List Host.Cell) :
    cellsRise (c :: cs) = true ↔ cellsAbove (c.1 + 1) cs := by
  induction cs generalizing c with
  | nil => simp [cellsRise, cellsAbove]
  | cons d ds ih =>
    simp only [cellsRise, Bool.and_eq_true, decide_eq_true_eq, cellsAbove, ih d]
    constructor <;> (rintro ⟨h, h'⟩; exact ⟨by omega, h'⟩)

theorem cellsRise_iff (cs : List Host.Cell) : cellsRise cs = true ↔ cellsAbove 0 cs := by
  cases cs with
  | nil => simp [cellsRise, cellsAbove]
  | cons c cs => simp [cellsRise_cons_iff, cellsAbove]

theorem cellsAbove_dropCell {lo : Nat} {cs : List Host.Cell} (a : Nat) (h : cellsAbove lo cs) :
    cellsAbove lo (dropCell cs a) := by
  induction cs generalizing lo with
  | nil => trivial
  | cons c cs ih =>
    by_cases hc : c.1 = a
    · have := ih (cellsAbove_mono (Nat.le_succ_of_le h.1) h.2)
      simpa [dropCell, hc] using this
    · have := ih h.2
      simpa [dropCell, hc, cellsAbove] using And.intro h.1 this

theorem not_mem_dropCell (cs : List Host.Cell) (a : Nat) : ∀ c ∈ dropCell cs a, c.1 ≠ a := by
  intro c hc
  simpa using (List.mem_filter.mp hc).2

theorem cellsAbove_placeCell {lo a : Nat} {cs : List Host.Cell} (b : Byte) (hlo : lo ≤ a)
    (hne : ∀ c ∈ cs, c.1 ≠ a) (h : cellsAbove lo cs) : cellsAbove lo (placeCell cs a b) := by
  induction cs generalizing lo with
  | nil => exact ⟨hlo, trivial⟩
  | cons c cs ih =>
    have hca : c.1 ≠ a := hne c (by simp)
    unfold placeCell
    split
    · next hlt => exact ⟨hlo, hlt, h.2⟩
    · next hge =>
      exact ⟨h.1, ih (by omega) (fun d hd => hne d (List.mem_cons_of_mem _ hd)) h.2⟩

theorem mem_placeCell {cs : List Host.Cell} {a : Nat} {b : Byte} {c : Host.Cell} (h : c ∈ placeCell cs a b) :
    c = (a, b) ∨ c ∈ cs := by
  induction cs with
  | nil => simpa [placeCell] using h
  | cons d ds ih =>
    unfold placeCell at h
    split at h
    · simpa using h
    · rcases List.mem_cons.mp h with rfl | h
      · simp
      · rcases ih h with rfl | h <;> simp [*]

/-- The canonical form, spelled out. -/
theorem wf_iff (m : Memory) :
    m.wf = true ↔ 64 ≤ m.size ∧ m.size ≤ 2 ^ 32 ∧ cellsAbove 0 m.cells
      ∧ ∀ c ∈ m.cells, c.1 < m.size ∧ c.2 ≠ unlistedByte := by
  simp [Memory.wf, cellsRise_iff, List.all_eq_true, and_assoc]

/-- Writing a byte inside `DM` keeps the canonical form. -/
theorem wf_writeByte {m : Memory} (hm : m.wf = true) {a : Nat} (ha : a < m.size) (b : Byte) :
    (m.writeByte a b).wf = true := by
  obtain ⟨hlo, hhi, hrise, hcells⟩ := (wf_iff m).mp hm
  refine (wf_iff _).mpr ⟨hlo, hhi, ?_, ?_⟩
  · simp only [Memory.writeByte]
    split
    · exact cellsAbove_dropCell _ hrise
    · exact cellsAbove_placeCell _ (Nat.zero_le _) (not_mem_dropCell _ _) (cellsAbove_dropCell _ hrise)
  · intro c hc
    simp only [Memory.writeByte] at hc ⊢
    split at hc
    · exact hcells c (List.mem_filter.mp hc).1
    · next hb =>
      rcases mem_placeCell hc with rfl | hc
      · exact ⟨ha, hb⟩
      · exact hcells c (List.mem_filter.mp hc).1

/-- Writing bytes inside `DM` keeps the canonical form. -/
theorem wf_writeBytes {m : Memory} (hm : m.wf = true) {a : Nat} {bs : List Byte} (h : a + bs.length ≤ m.size) :
    (m.writeBytes a bs).wf = true := by
  induction bs generalizing m a with
  | nil => exact hm
  | cons b bs ih =>
    simp only [List.length_cons] at h
    exact ih (wf_writeByte hm (by omega) b) (by simp; omega)

/-- A memory with nothing listed and a size the spec allows has the canonical form. -/
theorem wf_empty {n : Nat} (hlo : 64 ≤ n) (hhi : n ≤ 2 ^ 32) : (Memory.mk n []).wf = true :=
  (wf_iff _).mpr ⟨hlo, hhi, trivial, by simp⟩

end Sys2Proof.Machine
end

