-- ==== Sys2Proof/Laws/PerInstr.lean ====
section
/-!
SUPPORT. What every command word looks like (30_encoding.md rules R70, R71), command by command.
-/

namespace Sys2Proof.Laws.WordShape

/-- The word of a command has its reserved bits 0, its operation code in bits 7:0, between 0x01 and 0x0B, and its
flags in bits 8 and 9; a flag is 1 only where the operation allows it. -/
def Statement (i : Instr) : Prop :=
  cwReserved (encode i) = 0 ∧ cwOp (encode i) = i.opcode ∧ 1 ≤ i.opcode.toNat ∧ i.opcode.toNat ≤ 0x0B
    ∧ cwKs (encode i) = i.ksBit ∧ cwNi (encode i) = i.niBit
    ∧ (i.ksBit = true → ksAllowed i.opcode = true) ∧ (i.niBit = true → niAllowed i.opcode = true)

theorem scinit (ks : Bool) : Statement (.scinit ks) := by unfold Statement; cases ks <;> decide
theorem scperm : Statement .scperm := by unfold Statement; decide
theorem ksblk (ks : Bool) : Statement (.ksblk ks) := by unfold Statement; cases ks <;> decide
theorem xsubkey : Statement .xsubkey := by unfold Statement; decide
theorem sxor (ks ni : Bool) : Statement (.sxor ks ni) := by unfold Statement; cases ks <;> cases ni <;> decide
theorem xsxor (ni : Bool) : Statement (.xsxor ni) := by unfold Statement; cases ni <;> decide
theorem pclamp : Statement .pclamp := by unfold Statement; decide
theorem pmac : Statement .pmac := by unfold Statement; decide
theorem tvfy : Statement .tvfy := by unfold Statement; decide
theorem sealBox : Statement .sealBox := by unfold Statement; decide
theorem openBox : Statement .openBox := by unfold Statement; decide

end Sys2Proof.Laws.WordShape
end

