-- ==== Sys2Proof/Laws/Status.lean ====
section
/-!
SUPPORT. The fields of a packed `STATUS` word, and of the word a completed command leaves
(60_exceptions.md rule R248).
-/

namespace Sys2Proof.Machine

section
variable (code : BitVec 4) (done errs : Bool) (op : Byte)

/-- The bits of a packed `STATUS` word (10_state.md rule R23). -/
theorem packStatus_getLsbD (i : Nat) :
    (packStatus code done errs op).getLsbD i =
      if i < 4 then code.getLsbD i else if i = 4 then done else if i = 5 then errs
      else if i < 8 then false else op.getLsbD (i - 8) := by
  by_cases h : i < 16
  · interval_cases i <;> simp [packStatus]
  · have h1 : 8 ≤ i - 8 := by omega
    simp [packStatus, BitVec.getLsbD_ofBool]
    grind

@[simp] theorem packStatus_code : statusCode (packStatus code done errs op) = code := by
  ext i hi
  simp [statusCode, packStatus_getLsbD, hi]

@[simp] theorem packStatus_done : statusDone (packStatus code done errs op) = done := by
  rw [statusDone, packStatus_getLsbD]
  rfl

@[simp] theorem packStatus_errs : statusErrs (packStatus code done errs op) = errs := by
  rw [statusErrs, packStatus_getLsbD]
  rfl

@[simp] theorem packStatus_lastop : statusLastop (packStatus code done errs op) = op := by
  ext i hi
  simp [statusLastop, packStatus_getLsbD, hi]
  grind

@[simp] theorem packStatus_lowReserved : statusLowReserved (packStatus code done errs op) = 0 := by
  ext i hi
  simp [statusLowReserved, packStatus_getLsbD]
  grind

@[simp] theorem packStatus_highReserved : statusHighReserved (packStatus code done errs op) = 0 := by
  ext i hi
  simp [statusHighReserved, packStatus_getLsbD]
  grind

end

section
variable (old : Word) (code : Code) (op : Byte)

@[simp] theorem completedStatus_code : statusCode (completedStatus old code op) = code.bits := packStatus_code ..

@[simp] theorem completedStatus_done : statusDone (completedStatus old code op) = true := packStatus_done ..

@[simp] theorem completedStatus_errs : statusErrs (completedStatus old code op) = (statusErrs old || code != .ok) :=
  packStatus_errs ..

@[simp] theorem completedStatus_lastop : statusLastop (completedStatus old code op) = op := packStatus_lastop ..

@[simp] theorem completedStatus_lowReserved : statusLowReserved (completedStatus old code op) = 0 :=
  packStatus_lowReserved ..

@[simp] theorem completedStatus_highReserved : statusHighReserved (completedStatus old code op) = 0 :=
  packStatus_highReserved ..

end

/-- Different codes have different numbers (60_exceptions.md rule R240). -/
theorem code_bits_injective {c d : Code} (h : c.bits = d.bits) : c = d := by
  cases c <;> cases d <;> first | rfl | (revert h; decide)

/-- Only `OK` has the number 0. -/
theorem code_bits_eq_zero {c : Code} : c.bits = 0 ↔ c = .ok := by
  constructor
  · intro h
    exact code_bits_injective (d := .ok) h
  · rintro rfl
    rfl

end Sys2Proof.Machine
end

