-- ==== Sys2Proof/Tests/Slice0.lean ====
section
/-!
SUPPORT. The tests: ill-formed host accesses are stopped; the command words of 30_encoding.md rules R70, R78 written
out; the vectors of 95_test_vectors.md; and, for each statement of Certificates/Slice0/Obligations.lean that has
hypotheses, a concrete state and operands that meet them. The expected values are the spec's.
-/

namespace Sys2Proof.Tests

open Sys2Proof.Machine

/-! ### Helpers -/

/-- `n` bytes from their hexadecimal string, byte 0 first (00_scope.md rule R9). -/
def hex (n v : Nat) : List Byte := (leDigits n v).reverse

/-- The same as an array. -/
def hexArray (n v : Nat) : Bytes n := ⟨(hex n v).toArray, by simp [hex]⟩

/-- The block just reset, beside a `DM` of 256 bytes that holds `bytes` from `addr` on. -/
def machine (script : List HostAccess := []) (addr : Nat := 0) (bytes : List Byte := []) : State :=
  State.resetWith ((Memory.mk 256 []).writeBytes addr bytes) script

/-- The same with views set up. -/
def views (src dst len : Word) (bytes : List Byte := []) : State :=
  { machine [] src.toNat bytes with src := src, dst := dst, len := len }

/-- A property of the next state; false if there is none. -/
def next (r : Result) (p : State → Bool) : Bool :=
  match r with
  | .next t => p t
  | .fault _ => false
  | .refused _ => false

/-- The next state has this result code. -/
def code (r : Result) (c : Code) : Bool := next r fun t => statusCode t.status == c.bits

/-- The next state, if there is one. -/
def nextState (r : Result) : State :=
  match r with
  | .next t => t
  | .fault _ => machine
  | .refused _ => machine

/-- A result that has a next state is that next state. -/
theorem is_next {r : Result} (h : next r (fun _ => true) = true) : r = .next (nextState r) := by
  cases r with
  | next t => rfl
  | fault f => cases h
  | refused f => cases h

/-- The machine stops with this fault. -/
def faults (r : Result) (f : Fault) : Bool :=
  match r with
  | .next _ => false
  | .fault g => g == f
  | .refused _ => false

/-- The machine stops with this refusal. -/
def refuses (r : Result) (f : Refusal) : Bool :=
  match r with
  | .next _ => false
  | .fault _ => false
  | .refused g => g == f

/-! ### Well-formedness: each check has an ill-formed term, which the machine stops on -/

theorem test_wf_write_misaligned :
    HostAccess.wf 256 (.regWrite 0x00A 1) = false
      ∧ refuses (step (machine [.regWrite 0x00A 1])) (.notARegisterAccess 0x00A) = true := by decide

theorem test_wf_read_outside_register_space :
    HostAccess.wf 256 (.regRead 0x1000) = false
      ∧ refuses (step (machine [.regRead 0x1000])) (.notARegisterAccess 0x1000) = true := by decide

theorem test_wf_dm_write_past_end :
    HostAccess.wf 256 (.memWrite 0xFF [1, 2]) = false
      ∧ faults (step (machine [.memWrite 0xFF [1, 2]])) (.noSuchDmAddress 0xFF 2) = true := by decide

theorem test_wf_dm_read_past_end :
    HostAccess.wf 256 (.memRead 0x101 0) = false
      ∧ faults (step (machine [.memRead 0x101 0])) (.noSuchDmAddress 0x101 0) = true := by decide

theorem test_wf_accepts :
    HostAccess.wf 256 (.regWrite 0xFFC 1) = true ∧ HostAccess.wf 256 (.memRead 0x100 0) = true
      ∧ HostAccess.wf 256 .assertReset = true ∧ Instr.wf (.sxor true true) = true := by decide

/-! ### Decoding: words written out bit by bit (30_encoding.md rule R70: reserved, `NI`, `KS`, `op`) -/

theorem test_decode_core :
    decode 0b0000000000000000000000_0_0_00000001 = .ok (.scinit false)
      ∧ decode 0b0000000000000000000000_0_1_00000001 = .ok (.scinit true)
      ∧ decode 0b0000000000000000000000_0_0_00000010 = .ok .scperm
      ∧ decode 0b0000000000000000000000_0_0_00000011 = .ok (.ksblk false)
      ∧ decode 0b0000000000000000000000_0_1_00000011 = .ok (.ksblk true)
      ∧ decode 0b0000000000000000000000_0_0_00000100 = .ok .xsubkey := by decide

theorem test_decode_stream :
    decode 0b0000000000000000000000_0_0_00000101 = .ok (.sxor false false)
      ∧ decode 0b0000000000000000000000_0_1_00000101 = .ok (.sxor true false)
      ∧ decode 0b0000000000000000000000_1_0_00000101 = .ok (.sxor false true)
      ∧ decode 0b0000000000000000000000_1_1_00000101 = .ok (.sxor true true)
      ∧ decode 0b0000000000000000000000_0_0_00000110 = .ok (.xsxor false)
      ∧ decode 0b0000000000000000000000_1_0_00000110 = .ok (.xsxor true) := by decide

theorem test_decode_poly_and_box :
    decode 0b0000000000000000000000_0_0_00000111 = .ok .pclamp
      ∧ decode 0b0000000000000000000000_0_0_00001000 = .ok .pmac
      ∧ decode 0b0000000000000000000000_0_0_00001001 = .ok .tvfy
      ∧ decode 0b0000000000000000000000_0_0_00001010 = .ok .sealBox
      ∧ decode 0b0000000000000000000000_0_0_00001011 = .ok .openBox := by decide

/-- Vectors F15 to F24: every word here is illegal. -/
theorem test_decode_illegal :
    decode 0x00000000 = .error .noSuchOp ∧ decode 0x0000000C = .error .noSuchOp
      ∧ decode 0x00000102 = .error .ksNotAllowed ∧ decode 0x00000104 = .error .ksNotAllowed
      ∧ decode 0x00000106 = .error .ksNotAllowed ∧ decode 0x00000204 = .error .niNotAllowed
      ∧ decode 0x0000020A = .error .niNotAllowed ∧ decode 0x00000405 = .error .reservedBits
      ∧ decode 0x00010005 = .error .reservedBits ∧ decode 0x80000001 = .error .reservedBits := by decide

/-- A table row's word, read by the decoder and run by the step as the first command after reset. -/
theorem test_table_word :
    decodeTableWord 32 0x00000105 = some (.sxor true false) ∧ decodeTableWord 32 0x00000102 = none
      ∧ code (step (State.reset.withFetchWord 32 0x00000101)) .ok = true := by decide

/-! ### The units' functions (vectors Q, RD, CS, K, P of 95_test_vectors.md) -/

/-- Vector Q6. -/
theorem test_quarter_q6 :
    quarter ⟨0xe7e8c006, 0xc4f9417d, 0x6479b4b2, 0x68c67137⟩
      = ⟨0xe876d72b, 0x9361dfd5, 0xf1460244, 0x948541a3⟩ := by decide +kernel

/-- Vector RD1: one round of `x[i] = i`. -/
theorem test_round_rd1 :
    salsaRound #v[0, 1, 2, 3, 4, 5, 6, 7, 8, 9, 10, 11, 12, 13, 14, 15]
      = #v[0x20560736, 0x00000604, 0x000c0808, 0x81c1800d, 0xc3e2c001, 0x703b0fa6, 0x00000309, 0x00061c0d,
           0x00103002, 0x07020004, 0xc0181c42, 0x0000080e, 0x00000d03, 0x001a2407, 0x46214008, 0x903d18e2] := by
  decide +kernel

/-- Vector RD2: one canonical double-round of `x[0] = 1`. -/
theorem test_doubleround_rd2 :
    doubleRound #v[1, 0, 0, 0, 0, 0, 0, 0, 0, 0, 0, 0, 0, 0, 0, 0]
      = #v[0x8186a22d, 0x0040a284, 0x82479210, 0x06929051, 0x08000090, 0x02402200, 0x00004000, 0x00800000,
           0x00010200, 0x20400000, 0x08008104, 0x00000000, 0x20500000, 0xa0000040, 0x0008180a, 0x612a8020] := by
  decide +kernel

/-- Vectors CS2 and CS4: block 1 and block 256 of the zero-key stream, so the counter is little-endian in bytes
[8,16). -/
theorem test_core_stream_counter :
    (coreStream (streamBlock (zeroBytes 8) 1) (zeroBytes 32)).toList.take 8 = hex 8 0xabea8a17646d1a77
      ∧ (coreStream (streamBlock (zeroBytes 8) 256) (zeroBytes 32)).toList.take 8 = hex 8 0x915cf63b9275eea7 := by
  decide +kernel

/-- Vectors P9 (the sum is the modulus), P12 (a full chunk) and P17 (two full chunks of ones). -/
theorem test_poly1305_full_chunks :
    (poly1305 (hex 32 0xfffffffffffffffffffffffffffffffffcffffffffffffffffffffffffffffff)
        (hexArray 32 0x0100000000000000000000000000000000000000000000000000000000000000)).toList = hex 16 0
      ∧ (poly1305 (hex 16 0x000102030405060708090a0b0c0d0e0f)
        (hexArray 32 0x000102030405060708090a0b0c0d0e0f101112131415161718191a1b1c1d1e1f)).toList
          = hex 16 0xa2291a363def0b53845fa4126a6ad364
      ∧ (poly1305 (hex 32 0xffffffffffffffffffffffffffffffffffffffffffffffffffffffffffffffff)
        (hexArray 32 0xffffffffffffffffffffffffffffffffffffffffffffffffffffffffffffffff)).toList
          = hex 16 0x5400801f3f00204f3900c07e330060ae := by decide +kernel

/-- Vector P13 by the limb form. -/
theorem test_poly1305_limbs_p13 :
    (poly1305Limbs (hex 17 0x000102030405060708090a0b0c0d0e0f10)
        (hexArray 32 0x000102030405060708090a0b0c0d0e0f101112131415161718191a1b1c1d1e1f)).toList
          = hex 16 0xf735c97f7308fd79222447fe76a96872 := by decide +kernel

/-! ### The commands: one step each -/

/-- Vector BS3: `SCINIT` right after reset. -/
theorem test_scinit_after_reset :
    next (step (machine [.regWrite 0x000 0x00000001])) (fun t =>
      t.x == #v[0x61707865, 0, 0, 0, 0, 0x3320646e, 0, 0, 0, 0, 0x79622d32, 0, 0, 0, 0, 0x6b206574]
        && t.status == 0x00000110) = true := by decide +kernel

/-- Vector BS1, with the key in `SUBKEY` and flag `KS`. -/
theorem test_scinit_subkey :
    next (exec (.scinit true)
        { machine with
          subkey := hexArray 32 0x000102030405060708090a0b0c0d0e0f101112131415161718191a1b1c1d1e1f
          blk := hexArray 16 0xa0a1a2a3a4a5a6a7a8a9aaabacadaeaf }) (fun t =>
      t.x == #v[0x61707865, 0x03020100, 0x07060504, 0x0b0a0908, 0x0f0e0d0c, 0x3320646e, 0xa3a2a1a0, 0xa7a6a5a4,
                0xabaaa9a8, 0xafaeadac, 0x79622d32, 0x13121110, 0x17161514, 0x1b1a1918, 0x1f1e1d1c, 0x6b206574])
      = true := by decide +kernel

/-- Vector PM2. -/
theorem test_scperm_pm2 :
    next (exec .scperm { machine with x := #v[1, 0, 0, 0, 0, 0, 0, 0, 0, 0, 0, 0, 0, 0, 0, 0] }) (fun t =>
      t.x == #v[0x1cd2c5b5, 0x12e00046, 0x30c96673, 0x0cf7b89c, 0x01c1035c, 0xcfe87193, 0xf0bc08ac, 0x8fbf36eb,
                0x1f424d57, 0x48054223, 0xf92f5c52, 0x973f4fc7, 0xd3b4c91b, 0x55e794b5, 0x154e3d69, 0x16f5a6a3])
      = true := by decide +kernel

/-- Vector CS1: `KSBLK` right after reset; `X` keeps its value. -/
theorem test_ksblk_after_reset :
    next (step (machine [.regWrite 0x000 0x00000003])) (fun t =>
      t.ob.toList == hex 64 0x9a97f65b9b4c721b960a672145fca8d4e32e67f9111ea979ce9c4826806aeee63de9c0da2bd7f91ebcb2639bf989c6251b29bf38d39a9bdce7c55f4b2ac12a39
        && t.x == Vector.replicate 16 0) = true := by decide +kernel

/-- Vector SK3: the subkey of the published key and nonce. -/
theorem test_xsubkey_published :
    next (exec .xsubkey
        { machine with
          key := hexArray 32 0x1b27556473e985d462cd51197a9a46c76009549eac6474f206c4ee0844f68389
          nonce := hexArray 24 0x69696ee955b62b73cd62bda875fc73d68219e0036b7a0b37 }) (fun t =>
      t.subkey.toList == hex 32 0xdc908dda0b9344a953629b733820778880f3ceb421bb61b91cbd4c3e66256ce4) = true := by
  decide +kernel

/-- 41_salsa20_stream.md rule R136, example: `SXOR.NI`, four bytes. -/
theorem test_sxor_raw_keystream :
    next (exec (.sxor false true) (views 0 0 4)) (fun t => t.dm.readBytes 0 5 == hex 5 0x9a97f65b00) = true := by
  decide +kernel

/-- `SXOR` in place: the zero-key keystream of vector CS1 XOR the input bytes. -/
theorem test_sxor_in_place :
    next (exec (.sxor false false) (views 0x20 0x20 4 (hex 4 0xffffffff))) (fun t =>
      t.dm.readBytes 0x20 4 == hex 4 0x656809a4 && t.dm.readByte 0x24 == 0) = true := by decide +kernel

/-- Vector X3: `XSXOR.NI` under the published key and nonce. -/
theorem test_xsxor_published :
    next (exec (.xsxor true)
        { views 0 0x10 32 with
          key := hexArray 32 0x1b27556473e985d462cd51197a9a46c76009549eac6474f206c4ee0844f68389
          nonce := hexArray 24 0x69696ee955b62b73cd62bda875fc73d68219e0036b7a0b37 }) (fun t =>
      t.dm.readBytes 0x10 32 == hex 32 0xeea6a7251c1e72916d11c2cb214d3c252539121d8e234e652d651fa4c8cff880
        && t.subkey == zeroBytes 32) = true := by decide +kernel

/-- Vector K3 and 43_poly1305.md rule R180, example. -/
theorem test_pclamp_k3 :
    next (exec .pclamp
        { machine with pk := hexArray 32 0x85d6be7857556d337f4452fe42d506a80103808afb0db2fd4abff6af4149f51b }) (fun t =>
      t.rReg.toList == hex 16 0x85d6be0854556d037c44520e40d50608
        && t.sReg.toList == hex 16 0x0103808afb0db2fd4abff6af4149f51b) = true := by decide +kernel

/-- Vector P18: the published tag. -/
theorem test_pmac_published :
    next (exec .pmac
        { views 0 0 34 (hex 34 0x43727970746f6772617068696320466f72756d2052657365617263682047726f7570) with
          pk := hexArray 32 0x85d6be7857556d337f4452fe42d506a80103808afb0db2fd4abff6af4149f51b }) (fun t =>
      t.tag.toList == hex 16 0xa8061dc1305136c6c22b8baf0c0127a9) = true := by decide +kernel

/-- Vectors T1, T3 and T7. -/
theorem test_tvfy :
    code (exec .tvfy
        { machine with tag := hexArray 16 0xa8061dc1305136c6c22b8baf0c0127a9
                       tref := hexArray 16 0xa8061dc1305136c6c22b8baf0c0127a9 }) .ok = true
      ∧ code (exec .tvfy
        { machine with tag := hexArray 16 0xa8061dc1305136c6c22b8baf0c0127a9
                       tref := hexArray 16 0xa8061dc1305136c6c22b8baf0c0127a8 }) .eAuth = true
      ∧ code (exec .tvfy
        { machine with tag := hexArray 16 0x01020000000000000000000000000000
                       tref := hexArray 16 0x02010000000000000000000000000000 }) .eAuth = true := by decide +kernel

/-- Vector S3: seal of three bytes, in place. -/
theorem test_seal_s3 :
    next (exec .sealBox (views 0 0 35 (hex 35 0x616263))) (fun t =>
      t.dm.readBytes 0 35 == hex 35 0x0000000000000000000000000000000049750eb2e992631d4a620a4267155f7da75cd8
        && t.tag == zeroBytes 16) = true := by decide +kernel

/-- Vector S5: padding that is not zero enters the one-time key. -/
theorem test_seal_s5 :
    next (exec .sealBox
        (views 0 0x40 35 (hex 35 0x0102030405060708090a0b0c0d0e0f101112131415161718191a1b1c1d1e1f20616263))) (fun t =>
      t.dm.readBytes 0x40 35 == hex 35 0x00000000000000000000000000000000809d75fe29c67bf8335a42f2841dade7a75cd8)
      = true := by decide +kernel

/-- The sealed bytes of vector S3. -/
def sealedS3 : List Byte := hex 35 0x0000000000000000000000000000000049750eb2e992631d4a620a4267155f7da75cd8

/-- Vectors S7a and S7f: open gives the padded plaintext back, whatever byte 0 holds. -/
theorem test_open_s7a_s7f :
    next (exec .openBox (views 0 0x40 35 sealedS3)) (fun t =>
      statusCode t.status == 0 && t.dm.readBytes 0x40 35 == hex 35 0x616263) = true
      ∧ next (exec .openBox (views 0 0 35 (0xff :: sealedS3.drop 1))) (fun t =>
        statusCode t.status == 0 && t.dm.readBytes 0 35 == hex 35 0x616263) = true := by decide +kernel

/-- Vector S7b: one flipped ciphertext bit ends `E_AUTH`, and `DM` is as it was. -/
theorem test_open_s7b :
    next (exec .openBox (views 0 0x40 35 (sealedS3.take 34 ++ [0xd9]))) (fun t =>
      t.status == 0x00000B32 && t.dm.cells == (views 0 0x40 35 (sealedS3.take 34 ++ [0xd9])).dm.cells) = true := by
  decide +kernel

/-! ### The port -/

/-- A register write packs little-endian, and the two writes of one array do not disturb each other. -/
theorem test_key_write :
    next (step (machine [.regWrite 0x024 0x44332211])) (fun t =>
      t.key.toList == hex 32 0x0000000011223344000000000000000000000000000000000000000000000000) = true := by decide

/-- Writes to `STATUS` and to a reserved offset change nothing; a read of `CMD` gives 0. -/
theorem test_port_read_only :
    next (step (machine [.regWrite 0x004 0xffffffff])) (· == machine) = true
      ∧ next (step (machine [.regWrite 0x058 0xffffffff])) (· == machine) = true
      ∧ next (step (machine [.regRead 0x000])) (· == { machine with reply := .word 0 }) = true := by decide

/-- Writing the byte an unlisted address reads as removes the cell, so equal memories are equal data. -/
theorem test_memory_canonical :
    ((Memory.mk 256 []).writeBytes 3 [7, 8, 9]).writeByte 4 0 = ⟨256, [(3, 7), (5, 9)]⟩
      ∧ ((Memory.mk 256 []).writeBytes 3 [7, 8, 9]).wf = true := by decide

/-! ### Witnesses: states and operands that meet the hypotheses of the statements -/

/-- One access about to be made. -/
def pending (a : HostAccess) : State := machine [a]

theorem witness_ResetInputZeroesRegistersKeepsDm :
    (pending .assertReset).script = .assertReset :: [] := by decide

theorem witness_StepRunsDecodedCommand :
    (pending (.regWrite 0x000 0x00000305)).script = .regWrite 0x000 0x00000305 :: []
      ∧ decode 0x00000305 = .ok (.sxor true true) := by decide

theorem witness_IdleMachineStays : machine.script = [] := by decide

theorem witness_EngineNeverStops :
    (∃ a rest, (pending (.memRead 0x100 0)).script = a :: rest ∧ a.wf (pending (.memRead 0x100 0)).dm.size = true)
      ∧ ∃ a rest, (pending (.memRead 0x101 0)).script = a :: rest
          ∧ a.wf (pending (.memRead 0x101 0)).dm.size = false :=
  ⟨⟨_, _, rfl, by decide⟩, ⟨_, _, rfl, by decide⟩⟩

theorem witness_IllegalWordsEndInEIllcmd :
    illegalWord 0x80000001 ∧ illegalWord 0x0000000C ∧ ¬illegalWord 0x0000000B
      ∧ (pending (.regWrite 0x000 0x80000001)).script = .regWrite 0x000 0x80000001 :: [] := by
  unfold illegalWord; decide

/-- A bad word that is refused: the state the second clause of the bookkeeping is about. -/
def failed : State := nextState (step (pending (.regWrite 0x000 0x0000000C)))

theorem witness_CompletionBookkeeping :
    (pending (.regWrite 0x000 0x0000000C)).script = .regWrite 0x000 0x0000000C :: []
      ∧ statusErrs { failed with script := [.regRead 0x004] }.status = true
      ∧ step { failed with script := [.regRead 0x004] }
          = .next (nextState (step { failed with script := [.regRead 0x004] }))
      ∧ ∀ rest, { failed with script := [.regRead 0x004] }.script ≠ .assertReset :: rest :=
  ⟨rfl, by decide, is_next (by decide), fun _ h => by cases h⟩

/-- Each code of the fixed order is some command's result: vectors F15, F3, F4, F9, F25 (`E_OVLP` before `E_AUTH`),
S7b and F12. -/
theorem witness_FirstFailureIsReported :
    code (runCommand 0x00000000 machine) .eIllcmd = true
      ∧ code (runCommand 0x0000000A (views 0xFFFFFFFF 0 31)) .eShort = true
      ∧ code (runCommand 0x0000000A (views 0xFFFFFFFF 0 32)) .eRange = true
      ∧ code (runCommand 0x00000006 (views 0x10 0x18 16)) .eOvlp = true
      ∧ code (runCommand 0x0000000B (views 0 8 40)) .eOvlp = true
      ∧ code (runCommand 0x0000000B (views 0 0x40 35 (sealedS3.take 34 ++ [0xd9]))) .eAuth = true
      ∧ code (runCommand 0x00000005 (views 0x10 0x11 0)) .ok = true := by decide +kernel

theorem witness_RepeatedFailureGivesSameCode :
    runCommand 0x0000000A (views 0 0 31) = .next (nextState (runCommand 0x0000000A (views 0 0 31)))
      ∧ statusCode (nextState (runCommand 0x0000000A (views 0 0 31))).status ≠ Code.ok.bits :=
  ⟨is_next (by decide), by decide⟩

/-- The clauses of `SXOR`, at the boundaries of vectors F5 to F8 and F10 to F12. -/
theorem witness_SxorResult :
    viewOutOfRange (.sxor false false) (views 0xF0 0 17)
      ∧ viewOutOfRange (.sxor false true) (views 0 0xF0 17)
      ∧ (¬viewOutOfRange (.sxor false false) (views 0x10 0x1F 16) ∧ viewsOverlapPartly (views 0x10 0x1F 16))
      ∧ (¬viewOutOfRange (.sxor false false) (views 0xF0 0 16) ∧ ¬viewsOverlapPartly (views 0xF0 0 16))
      ∧ (¬viewOutOfRange (.sxor false true) (views 0xF0 0 17) ∧ ¬viewsOverlapPartly (views 0xF0 0 17))
      ∧ (¬viewOutOfRange (.sxor true false) (views 0x10 0x11 0) ∧ ¬viewsOverlapPartly (views 0x10 0x11 0)) := by
  unfold viewOutOfRange viewsOverlapPartly; decide

/-- The clauses of `XSXOR`, vectors F9 to F11. -/
theorem witness_XsxorResult :
    viewOutOfRange (.xsxor false) (views 0xF0 0 17)
      ∧ (¬viewOutOfRange (.xsxor false) (views 0x10 0x18 16) ∧ viewsOverlapPartly (views 0x10 0x18 16))
      ∧ (¬viewOutOfRange (.xsxor false) (views 0x10 0x20 16) ∧ ¬viewsOverlapPartly (views 0x10 0x20 16))
      ∧ (¬viewOutOfRange (.xsxor true) (views 0x101 0x10 16) ∧ ¬viewsOverlapPartly (views 0x101 0x10 16))
      ∧ (¬viewOutOfRange (.xsxor false) (views 0x10 0x10 16) ∧ ¬viewsOverlapPartly (views 0x10 0x10 16)) := by
  unfold viewOutOfRange viewsOverlapPartly; decide

/-- The clauses of `PMAC`, vectors F13 and F14. -/
theorem witness_PmacResult :
    (views 0x101 0 0).dm.size < (views 0x101 0 0).src.toNat + (views 0x101 0 0).len.toNat
      ∧ (views 0x100 0 0).src.toNat + (views 0x100 0 0).len.toNat ≤ (views 0x100 0 0).dm.size := by decide

theorem witness_TvfyResult :
    machine.tag = machine.tref
      ∧ { machine with tag := zeroBytes 16, tref := hexArray 16 1 }.tag
          ≠ { machine with tag := zeroBytes 16, tref := hexArray 16 1 }.tref := by decide

/-- The clauses of `SEAL`, vectors F1 and F4 among them. -/
theorem witness_SealResult :
    (views 0 0 31).len.toNat < 32
      ∧ (32 ≤ (views 0xFFFFFFFF 0 32).len.toNat ∧ viewOutOfRange .sealBox (views 0xFFFFFFFF 0 32))
      ∧ (32 ≤ (views 0 31 32).len.toNat ∧ ¬viewOutOfRange .sealBox (views 0 31 32)
          ∧ viewsOverlapPartly (views 0 31 32))
      ∧ (32 ≤ (views 0xE0 0xC0 32).len.toNat ∧ ¬viewOutOfRange .sealBox (views 0xE0 0xC0 32)
          ∧ ¬viewsOverlapPartly (views 0xE0 0xC0 32)) := by
  unfold viewOutOfRange viewsOverlapPartly; decide

/-- The clauses of `OPEN` that come before the compare, vectors F2 and F25 among them. -/
theorem witness_OpenResult_checks :
    (views 0 0 0).len.toNat < 32
      ∧ (32 ≤ (views 0 0xE1 32).len.toNat ∧ viewOutOfRange .openBox (views 0 0xE1 32))
      ∧ (32 ≤ (views 0 8 40).len.toNat ∧ ¬viewOutOfRange .openBox (views 0 8 40)
          ∧ viewsOverlapPartly (views 0 8 40)) := by
  unfold viewOutOfRange viewsOverlapPartly; decide

/-- The clauses of `OPEN` that the compare decides, vectors S7b and S7a. -/
theorem witness_OpenResult_compare :
    (32 ≤ (views 0 0x40 35).len.toNat ∧ ¬viewOutOfRange .openBox (views 0 0x40 35)
        ∧ ¬viewsOverlapPartly (views 0 0x40 35))
      ∧ tagMismatch .openBox (views 0 0x40 35 (sealedS3.take 34 ++ [0xd9]))
      ∧ ¬tagMismatch .openBox (views 0 0x40 35 sealedS3) := by
  unfold viewOutOfRange viewsOverlapPartly tagMismatch; decide +kernel

theorem witness_WordsAreLittleEndian : 20 + 4 ≤ 24 ∧ 2 ^ 128 - 1 < 2 ^ (8 * 16) := by decide

theorem witness_KsblkIsFeedForwardOfScperm :
    exec (.scinit true) machine = .next (nextState (exec (.scinit true) machine))
      ∧ exec .scperm (nextState (exec (.scinit true) machine))
          = .next (nextState (exec .scperm (nextState (exec (.scinit true) machine))))
      ∧ exec (.ksblk true) machine = .next (nextState (exec (.ksblk true) machine)) :=
  ⟨is_next (by decide), is_next (by decide), is_next (by decide)⟩

theorem witness_XsubkeyFromPermutation :
    machine.blk.toList = machine.nonce.toList.take 16
      ∧ exec (.scinit false) machine = .next (nextState (exec (.scinit false) machine))
      ∧ exec .scperm (nextState (exec (.scinit false) machine))
          = .next (nextState (exec .scperm (nextState (exec (.scinit false) machine))))
      ∧ exec .xsubkey machine = .next (nextState (exec .xsubkey machine)) :=
  ⟨by decide, is_next (by decide), is_next (by decide), is_next (by decide)⟩

theorem witness_KeystreamBytesComeFromBlocks : 64 < (65 : Word).toNat := by decide

theorem witness_BlockCounterNeverWraps : 2 ^ 26 - 1 < blockCount (0xFFFFFFFF : Word).toNat := by decide

theorem witness_StreamXorProperties : [(1 : Byte), 2, 3].length = (3 : Word).toNat
    ∧ (3 : Word).toNat ≤ (64 : Word).toNat := by decide

/-- A core input block of the stream in `BLK`. -/
def secondBlock : State := { machine with blk := streamBlock (zeroBytes 8) 1 }

theorem witness_KsblkGivesStreamBlock :
    secondBlock.blk = zeroBytes 8 ++ leBytes 8 1 ∧ 64 * (1 + 1) ≤ (128 : Word).toNat
      ∧ exec (.ksblk false) secondBlock = .next (nextState (exec (.ksblk false) secondBlock)) :=
  ⟨rfl, by decide, is_next (by decide)⟩

/-- An input in place, XORed by each stream command. -/
def inPlace : State := views 0x20 0x20 4 [1, 2, 3, 4]

theorem witness_StreamOutputBytes :
    exec (.sxor true false) inPlace = .next (nextState (exec (.sxor true false) inPlace))
      ∧ statusCode (nextState (exec (.sxor true false) inPlace)).status = Code.ok.bits
      ∧ exec (.xsxor true) inPlace = .next (nextState (exec (.xsxor true) inPlace))
      ∧ statusCode (nextState (exec (.xsxor true) inPlace)).status = Code.ok.bits :=
  ⟨is_next (by decide +kernel), by decide +kernel, is_next (by decide +kernel), by decide +kernel⟩

theorem witness_StreamTwiceInPlaceRestores :
    inPlace.src = inPlace.dst
      ∧ exec (.xsxor false) inPlace = .next (nextState (exec (.xsxor false) inPlace))
      ∧ statusCode (nextState (exec (.xsxor false) inPlace)).status = Code.ok.bits
      ∧ exec (.xsxor false) (nextState (exec (.xsxor false) inPlace))
          = .next (nextState (exec (.xsxor false) (nextState (exec (.xsxor false) inPlace)))) :=
  ⟨rfl, is_next (by decide +kernel), by decide +kernel, is_next (by decide +kernel)⟩

theorem witness_XsubkeySxorEqualsXsxor :
    exec .xsubkey inPlace = .next (nextState (exec .xsubkey inPlace))
      ∧ exec (.sxor true false) (nextState (exec .xsubkey inPlace))
          = .next (nextState (exec (.sxor true false) (nextState (exec .xsubkey inPlace))))
      ∧ exec (.xsxor false) inPlace = .next (nextState (exec (.xsxor false) inPlace)) :=
  ⟨is_next (by decide +kernel), is_next (by decide +kernel), is_next (by decide +kernel)⟩

theorem witness_ChunkValueBounds :
    1 ≤ (hex 1 0).length ∧ (hex 1 0).length ≤ 16 ∧ 1 ≤ (hex 16 0).length ∧ (hex 16 0).length ≤ 16 := by decide

/-- Both clauses: an empty message, and a key whose first half clamps to zero (vector K5). -/
theorem witness_PolyTagIsMaskWhenEmptyOrZero :
    hex 0 0 = []
      ∧ leInt (clamp (slice (hexArray 32 0x000000f0030000f0030000f0030000f000000000000000000000000000000001) 0 16)).toList
          = 0 := by decide

/-- The padded plaintext of vector S3, in place. -/
def paddedS3 : State := views 0 0 35 (hex 35 0x616263)

theorem witness_SealOutputLayout :
    exec .sealBox paddedS3 = .next (nextState (exec .sealBox paddedS3))
      ∧ statusCode (nextState (exec .sealBox paddedS3)).status = Code.ok.bits :=
  ⟨is_next (by decide +kernel), by decide +kernel⟩

/-- Opened into the same view, and into the one right after it. -/
theorem witness_SealThenOpenRestores :
    (paddedS3.dm.readBytes paddedS3.src.toNat paddedS3.len.toNat).take 32 = List.replicate 32 0
      ∧ exec .sealBox paddedS3 = .next (nextState (exec .sealBox paddedS3))
      ∧ statusCode (nextState (exec .sealBox paddedS3)).status = Code.ok.bits
      ∧ (0 : Word).toNat + paddedS3.len.toNat ≤ paddedS3.dm.size ∧ (0 : Word) = paddedS3.dst
      ∧ (35 : Word).toNat + paddedS3.len.toNat ≤ paddedS3.dm.size
      ∧ paddedS3.dst.toNat + paddedS3.len.toNat ≤ (35 : Word).toNat :=
  ⟨by decide, is_next (by decide +kernel), by decide +kernel, by decide, by decide, by decide, by decide⟩

/-- The box of vector S3, and the same box with its reserved region overwritten. -/
def boxS3 : State := views 0 0x40 35 sealedS3

theorem witness_OpenIgnoresReservedRegion :
    (List.replicate 16 (0xff : Byte)).length = 16 ∧ 32 ≤ boxS3.len.toNat
      ∧ exec .openBox boxS3 = .next (nextState (exec .openBox boxS3))
      ∧ exec .openBox { boxS3 with dm := boxS3.dm.writeBytes boxS3.src.toNat (List.replicate 16 0xff) }
          = .next (nextState (exec .openBox
              { boxS3 with dm := boxS3.dm.writeBytes boxS3.src.toNat (List.replicate 16 0xff) }))
      ∧ statusCode (nextState (exec .openBox boxS3)).status = Code.ok.bits :=
  ⟨by decide, by decide, is_next (by decide +kernel), is_next (by decide +kernel), by decide +kernel⟩

theorem witness_CommandsWriteOnlyTheirRegisters :
    exec .pmac (views 0 0 0) = .next (nextState (exec .pmac (views 0 0 0))) := is_next (by decide)

theorem witness_CommandMemoryFrame :
    exec (.sxor false true) (views 0 0x10 4) = .next (nextState (exec (.sxor false true) (views 0 0x10 4)))
      ∧ writesView .pmac = false ∧ exec .pmac (views 0 0x10 4) = .next (nextState (exec .pmac (views 0 0x10 4))) :=
  ⟨is_next (by decide +kernel), rfl, is_next (by decide +kernel)⟩

/-- Two states that differ in registers that `OPEN` does not read. -/
theorem witness_CommandsReadOnlyTheirOperands :
    sameOperands .openBox boxS3 { boxS3 with tag := hexArray 16 7, blk := hexArray 16 9 }
      ∧ exec .openBox boxS3 = .next (nextState (exec .openBox boxS3))
      ∧ exec .openBox { boxS3 with tag := hexArray 16 7, blk := hexArray 16 9 }
          = .next (nextState (exec .openBox { boxS3 with tag := hexArray 16 7, blk := hexArray 16 9 }))
      ∧ statusCode (nextState (exec .openBox boxS3)).status = Code.ok.bits :=
  ⟨⟨rfl, rfl, rfl, rfl, rfl, rfl, rfl⟩, is_next (by decide +kernel), is_next (by decide +kernel), by decide +kernel⟩

/-- The last writable word, `x[15]`. -/
theorem witness_RegisterReadback :
    0x0FC % 4 = 0 ∧ hostWritable 0x0FC
      ∧ (machine [.regWrite 0x0FC 5, .regRead 0x0FC]).script = .regWrite 0x0FC 5 :: .regRead 0x0FC :: [] := by
  unfold hostWritable; decide

/-- A reserved offset at the end of the space, and a host-read-only register. -/
theorem witness_ReadOnlyAndReservedOffsets :
    (0xFFC % 4 = 0 ∧ 0xFFC < 0x1000 ∧ reservedOffset 0xFFC ∧ ¬hostWritable 0xFFC)
      ∧ (0x100 % 4 = 0 ∧ 0x100 < 0x1000 ∧ 0x100 ≠ 0 ∧ ¬hostWritable 0x100
        ∧ (pending (.regWrite 0x100 1)).script = .regWrite 0x100 1 :: [])
      ∧ (pending (.regRead 0x000)).script = .regRead 0x000 :: [] := by
  unfold hostWritable reservedOffset; decide

theorem witness_MisalignedRegisterAccessRefused :
    (0x005 % 4 ≠ 0 ∧ (pending (.regRead 0x005)).script = .regRead 0x005 :: [])
      ∧ (0x1000 ≤ 0x1000 ∧ (pending (.regWrite 0x1000 1)).script = .regWrite 0x1000 1 :: []) := by decide

/-- The last bytes of `DM`. -/
theorem witness_HostMemoryAccess :
    (0xFE + [(1 : Byte), 2].length ≤ (pending (.memWrite 0xFE [1, 2])).dm.size
        ∧ (pending (.memWrite 0xFE [1, 2])).script = .memWrite 0xFE [1, 2] :: [])
      ∧ (0xFE + 2 ≤ (pending (.memRead 0xFE 2)).dm.size
        ∧ (pending (.memRead 0xFE 2)).script = .memRead 0xFE 2 :: []) := by decide

theorem witness_HostMemoryOutsideDmFaults :
    ((pending (.memWrite 0xFF [1, 2])).dm.size < 0xFF + [(1 : Byte), 2].length
        ∧ (pending (.memWrite 0xFF [1, 2])).script = .memWrite 0xFF [1, 2] :: [])
      ∧ ((pending (.memRead 0xFF 2)).dm.size < 0xFF + 2
        ∧ (pending (.memRead 0xFF 2)).script = .memRead 0xFF 2 :: []) := by decide

/-- A state that is not the reset state: the box of vector S3 just opened. -/
theorem witness_EveryStepKeepsInvariant :
    (nextState (exec .openBox boxS3)).Inv
      ∧ step (nextState (exec .openBox boxS3)) = .next (nextState (step (nextState (exec .openBox boxS3)))) :=
  ⟨⟨by decide +kernel, by decide +kernel, by decide +kernel⟩, is_next (by decide +kernel)⟩

end Sys2Proof.Tests
end

section
/-!
The byte order (00_scope.md rules R12 to R14): `ld32`, `st32`, `le_int` and `le_bytes` as the little-endian sums
they are, and inverse to each other.
-/

namespace Sys2Proof.Machine

/-- A byte put in right above a word's `k` low bits adds `2^k` times its value. -/
theorem toNat_or_byte_shiftLeft {lo : Word} {k : Nat} (b : Byte) (hlo : lo.toNat < 2 ^ k) (hk : k + 8 ≤ 32) :
    (lo ||| (b.setWidth 32 <<< k)).toNat = lo.toNat + 2 ^ k * b.toNat := by
  have hb : b.toNat * 2 ^ k < 2 ^ 32 :=
    calc b.toNat * 2 ^ k < 2 ^ 8 * 2 ^ k := Nat.mul_lt_mul_of_pos_right b.isLt (Nat.two_pow_pos k)
      _ = 2 ^ (k + 8) := by rw [← pow_add, Nat.add_comm]
      _ ≤ 2 ^ 32 := Nat.pow_le_pow_right (by decide) hk
  have hshift : (b.setWidth 32 <<< k).toNat = 2 ^ k * b.toNat := by
    rw [BitVec.toNat_shiftLeft, BitVec.toNat_setWidth, Nat.shiftLeft_eq,
      Nat.mod_eq_of_lt (a := b.toNat) (by omega), Nat.mod_eq_of_lt hb, Nat.mul_comm]
  rw [BitVec.toNat_or, hshift, Nat.or_comm, ← Nat.two_pow_add_eq_or_of_lt hlo, Nat.add_comm]

/-- `ld32` is the little-endian sum of its four bytes (00_scope.md rule R12). -/
theorem toNat_ld32 {n : Nat} (a : Bytes n) (o : Nat) (h : o + 4 ≤ n) :
    (ld32 a o h).toNat
      = a[o].toNat + 2 ^ 8 * a[o + 1].toNat + 2 ^ 16 * a[o + 2].toNat + 2 ^ 24 * a[o + 3].toNat := by
  have h0 := a[o].isLt
  have h1 := a[o + 1].isLt
  have h2 := a[o + 2].isLt
  have e0 : (a[o].setWidth 32).toNat = a[o].toNat := by
    rw [BitVec.toNat_setWidth, Nat.mod_eq_of_lt (by omega)]
  have e1 := toNat_or_byte_shiftLeft (lo := a[o].setWidth 32) (k := 8) a[o + 1] (by omega) (by decide)
  have e2 := toNat_or_byte_shiftLeft (k := 16) a[o + 2] (by rw [e1]; omega) (by decide)
  have e3 := toNat_or_byte_shiftLeft (k := 24) a[o + 3] (by rw [e2, e1]; omega) (by decide)
  rw [ld32, e3, e2, e1, e0]

/-- The four bytes that `ld32` reads, as a slice of the array. -/
theorem take_four_drop_toList {n : Nat} (a : Bytes n) (o : Nat) (h : o + 4 ≤ n) :
    (a.toList.drop o).take 4 = [a[o], a[o + 1], a[o + 2], a[o + 3]] := by
  apply List.ext_getElem
  · simp
    omega
  · intro i _ hi
    simp only [List.length_cons, List.length_nil] at hi
    interval_cases i <;> simp

/-- `ld32` is the `le_int` of the four bytes it reads (00_scope.md rules R12, R14). -/
theorem toNat_ld32_eq_leInt {n : Nat} (a : Bytes n) (o : Nat) (h : o + 4 ≤ n) :
    (ld32 a o h).toNat = leInt ((a.toList.drop o).take 4) := by
  rw [toNat_ld32, take_four_drop_toList a o h]
  simp only [leInt]
  omega

/-- `st32` lists the four base-256 digits of the word, least significant first (00_scope.md rules R13, R14). -/
theorem st32_eq_leBytes (w : Word) : st32 w = leBytes 4 w.toNat := by
  have digit (k : Nat) : w.extractLsb' k 8 = BitVec.ofNat 8 (w.toNat / 2 ^ k) := by
    apply BitVec.eq_of_toNat_eq
    rw [BitVec.extractLsb'_toNat, Nat.shiftRight_eq_div_pow, BitVec.toNat_ofNat]
  apply Vector.toList_inj.mp
  simp [st32, leDigits, digit, Nat.div_div_eq_div_mul]

/-- `ld32` undoes `st32` (00_scope.md rule R13). -/
theorem ld32_st32 (w : Word) : ld32 (st32 w) 0 = w := by
  apply BitVec.eq_of_toNat_eq
  have hslice : ((st32 w).toList.drop 0).take 4 = leDigits 4 w.toNat := by
    rw [List.drop_zero, List.take_of_length_le (by simp), st32_eq_leBytes, toList_leBytes]
  rw [toNat_ld32_eq_leInt, hslice, leInt_leDigits 4 w.toNat w.isLt]

/-- `le_int` as the sum it stands for (00_scope.md rule R14). -/
theorem leInt_eq_sum (l : List Byte) : leInt l = ∑ i : Fin l.length, l[i].toNat * 2 ^ (8 * i.val) := by
  induction l with
  | nil => rfl
  | cons b bs ih =>
    have hshift : ∀ i : Fin bs.length,
        bs[i].toNat * 2 ^ (8 * (i.val + 1)) = 256 * (bs[i].toNat * 2 ^ (8 * i.val)) := by
      intro i
      rw [Nat.mul_add, pow_add]
      ring
    calc leInt (b :: bs)
        = b.toNat + ∑ i : Fin bs.length, bs[i].toNat * 2 ^ (8 * (i.val + 1)) := by
          simp only [leInt, ih, Finset.mul_sum, hshift]
      _ = ∑ i : Fin (b :: bs).length, (b :: bs)[i].toNat * 2 ^ (8 * i.val) := by
          simp [Fin.sum_univ_succ]

/-- Settles O23: each sum and each inverse is a lemma above. -/
theorem wordsAreLittleEndian : Obligations.WordsAreLittleEndian := by
  refine ⟨fun n a o h => ⟨toNat_ld32 a o h, toNat_ld32_eq_leInt a o h⟩,
    fun w => ⟨ld32_st32 w, st32_eq_leBytes w, rfl⟩, leInt_eq_sum, fun n v hv => ?_⟩
  rw [toList_leBytes]
  exact leInt_leDigits n v (by rwa [pow_mul] at hv)

end Sys2Proof.Machine
end

section
/-!
The step with no access pending, and the invariant of the machine: each of its three parts is kept by the operations
of the machine, and so every command, every access of the host and every step keeps it.
-/

namespace Sys2Proof.Machine

/-! ### The step -/

/-- With no access pending the step answers the state it was given. -/
theorem step_of_script_nil {s : State} (h : s.script = []) : step s = .next s := by
  simp only [step, h]

/-- A pending access leaves the script and is performed. -/
theorem step_of_script_cons {s : State} {a : HostAccess} {rest : List HostAccess} (h : s.script = a :: rest) :
    step s = perform a (s.takeAccess rest) := by
  simp only [step, h]

/-- Settles O4: `step` by its equation for an empty script. -/
theorem idleMachineStays : Obligations.IdleMachineStays := fun _ h => step_of_script_nil h

/-! ### What a body can answer -/

/-- A sequence that succeeds succeeds in both its parts. -/
theorem bind_eq_ok {α β : Type} {x : Except Code α} {f : α → Except Code β} {b : β} (h : (x >>= f) = .ok b) :
    ∃ a, x = .ok a ∧ f a = .ok b := by
  cases x with
  | ok a => exact ⟨a, rfl, h⟩
  | error c => cases h

/-- A code that a sequence raises is raised by its first part, or by its second after the first succeeds. -/
theorem bind_eq_error {α β : Type} {x : Except Code α} {f : α → Except Code β} {c : Code}
    (h : (x >>= f) = .error c) : x = .error c ∨ ∃ a, x = .ok a ∧ f a = .error c := by
  cases x with
  | ok a => exact .inr ⟨a, rfl, h⟩
  | error d =>
    cases h
    exact .inl rfl

/-- A check raises no code but its own. -/
theorem raiseIf_eq_error {b : Bool} {c d : Code} (h : raiseIf b c = .error d) : d = c := by
  cases b <;> cases h
  rfl

/-- `seal` raises no code but `E_SHORT` (44_secretbox.md rule R211). -/
theorem secretboxSeal_error {inp : List Byte} {n : Word} {nonce : Bytes 24} {key : Bytes 32} {c : Code}
    (h : secretboxSeal inp n nonce key = .error c) : c = .eShort := by
  unfold secretboxSeal at h
  split at h <;> cases h
  rfl

/-- `open` raises no code but `E_SHORT` and `E_AUTH` (44_secretbox.md rules R214, R215). -/
theorem secretboxOpen_error {inp : List Byte} {n : Word} {nonce : Bytes 24} {key : Bytes 32} {c : Code}
    (h : secretboxOpen inp n nonce key = .error c) : c = .eShort ∨ c = .eAuth := by
  unfold secretboxOpen at h
  split at h
  · cases h
    exact .inl rfl
  · dsimp only at h
    split at h <;> cases h
    exact .inr rfl

/-- A command that fails raises a code that the table of codes gives to it (60_exceptions.md rule R240). -/
theorem commandBody_error_raised {i : Instr} {s : State} {c : Code} (h : commandBody i s = .error c) :
    codeRaisedBy c.bits i.opcode = true := by
  cases i
  case scinit | scperm | ksblk | xsubkey | pclamp => cases h
  case pmac | tvfy =>
    obtain hc | ⟨_, -, hu⟩ := bind_eq_error h
    · cases raiseIf_eq_error hc
      rfl
    · cases hu
  case sxor | xsxor =>
    obtain hc | ⟨_, -, hu⟩ := bind_eq_error h
    · obtain rfl | rfl := streamChecks_error hc <;> rfl
    · cases hu
  case sealBox =>
    obtain hc | ⟨_, -, hbox⟩ := bind_eq_error h
    · obtain rfl | rfl | rfl := boxChecks_error hc <;> rfl
    · obtain hc | ⟨_, -, hu⟩ := bind_eq_error hbox
      · cases secretboxSeal_error hc
        rfl
      · cases hu
  case openBox =>
    obtain hc | ⟨_, -, hbox⟩ := bind_eq_error h
    · obtain rfl | rfl | rfl := boxChecks_error hc <;> rfl
    · obtain hc | ⟨_, -, hu⟩ := bind_eq_error hbox
      · obtain rfl | rfl := secretboxOpen_error hc <;> rfl
      · cases hu

/-- A command that succeeds leaves `R` as it was or puts the clamped first half of `PK` there
(10_state.md rules R33, R41). -/
theorem commandBody_rReg {i : Instr} {s u : State} (h : commandBody i s = .ok u) :
    u.rReg = s.rReg ∨ u.rReg = clamp (keyHalfR s.pk) := by
  cases i
  case scinit | scperm | ksblk | xsubkey =>
    cases h
    exact .inl rfl
  case pclamp =>
    cases h
    exact .inr rfl
  case pmac =>
    obtain ⟨_, -, hu⟩ := bind_eq_ok h
    cases hu
    exact .inr rfl
  case sxor | xsxor | tvfy =>
    obtain ⟨_, -, hu⟩ := bind_eq_ok h
    cases hu
    exact .inl rfl
  case sealBox | openBox =>
    obtain ⟨_, -, hbox⟩ := bind_eq_ok h
    obtain ⟨_, -, hu⟩ := bind_eq_ok hbox
    cases hu
    exact .inl rfl

/-! ### `DM` keeps its canonical form -/

/-- A command that succeeds keeps the canonical form: an output view that it writes lies inside `DM`. -/
theorem commandBody_wf {i : Instr} {s u : State} (h : commandBody i s = .ok u) (hs : s.dm.wf = true) :
    u.dm.wf = true := by
  obtain hdm | ⟨hfits, out, hlen, hdm⟩ := commandBody_dm h
  · rwa [hdm]
  · rw [hdm]
    exact wf_writeBytes hs (by omega)

/-! ### `STATUS` is a legal status word -/

/-- Every command may end with `OK` (60_exceptions.md rule R240). -/
theorem codeRaisedBy_ok (i : Instr) : codeRaisedBy Code.ok.bits i.opcode = true := by
  cases i <;> rfl

/-- Every command word, legal or not, may end with `E_ILLCMD`: an illegal one does (60_exceptions.md rule R243). -/
theorem codeRaisedBy_illcmd (op : Byte) : codeRaisedBy Code.eIllcmd.bits op = true := rfl

/-- A completion leaves a legal status word whatever `STATUS` was before, if the command can raise the code. -/
theorem statusLegal_completedStatus (old : Word) {code : Code} {op : Byte}
    (h : codeRaisedBy code.bits op = true) : statusLegal (completedStatus old code op) = true := by
  have herrs : code.bits = 0 ∨ (statusErrs old || code != .ok) = true := by
    by_cases hc : code = .ok
    · exact .inl (code_bits_eq_zero.mpr hc)
    · simp [hc]
  rw [statusLegal, Bool.or_eq_true]
  right
  simpa [h] using herrs

/-! ### `R` holds a clamped multiplier -/

/-- Clamping twice is clamping once (43_poly1305.md rule R172). -/
@[simp] theorem clamp_clamp (rb : Bytes 16) : clamp (clamp rb) = clamp rb := by
  simp [clamp, BitVec.and_assoc]

/-- The zero multiplier, which `R` holds at reset, is clamped. -/
theorem clamp_zeroBytes : clamp (zeroBytes 16) = zeroBytes 16 := by decide

/-- A command that succeeds leaves a clamped multiplier in `R`. -/
theorem commandBody_clamped {i : Instr} {s u : State} (h : commandBody i s = .ok u)
    (hs : clamp s.rReg = s.rReg) : clamp u.rReg = u.rReg := by
  obtain hr | hr := commandBody_rReg h
  · rwa [hr]
  · rw [hr, clamp_clamp]

/-! ### The invariant -/

/-- The invariant speaks of `DM`, `STATUS` and `R` only. -/
theorem inv_congr {s t : State} (hdm : t.dm = s.dm) (hstatus : t.status = s.status) (hr : t.rReg = s.rReg) :
    t.Inv ↔ s.Inv := by
  unfold State.Inv
  rw [hdm, hstatus, hr]

/-- Completion with a code that the word can raise meets the invariant beside a good `DM` and a clamped `R`. -/
theorem inv_finish {s : State} {op : Byte} {code : Code} (hdm : s.dm.wf = true) (hr : clamp s.rReg = s.rReg)
    (hcode : codeRaisedBy code.bits op = true) : (s.finish op code).Inv :=
  ⟨hdm, statusLegal_completedStatus s.status hcode, hr⟩

/-- Every command keeps the invariant. -/
theorem exec_keeps_inv {i : Instr} {s t : State} (hs : s.Inv) (h : exec i s = .next t) : t.Inv := by
  obtain ⟨hdm, -, hr⟩ := hs
  obtain ⟨u, hbody, rfl⟩ | ⟨c, hbody, rfl⟩ := exec_cases h
  · exact inv_finish (commandBody_wf hbody hdm) (commandBody_clamped hbody hr) (codeRaisedBy_ok i)
  · exact inv_finish hdm hr (commandBody_error_raised hbody)

/-- Every command word keeps the invariant, an illegal one too. -/
theorem runCommand_keeps_inv {cw : Word} {s t : State} (hs : s.Inv) (h : runCommand cw s = .next t) : t.Inv := by
  unfold runCommand at h
  split at h
  · obtain ⟨hdm, -, hr⟩ := hs
    cases h
    exact inv_finish hdm hr (codeRaisedBy_illcmd _)
  · exact exec_keeps_inv hs h

/-- A register write of data changes neither `DM` nor a register that the host cannot write
(10_state.md rules R35, R36). -/
theorem writeReg_inv_iff (s : State) (v : Word) (p : RegWord) : (s.writeReg v p).Inv ↔ s.Inv := by
  cases p <;> exact inv_congr rfl rfl rfl

/-- An accepted register write keeps the invariant, one that issues a command too. -/
theorem acceptRegWrite_keeps_inv {off : Nat} {v : Word} {s t : State} (hs : s.Inv)
    (h : acceptRegWrite off v s = .next t) : t.Inv := by
  unfold acceptRegWrite at h
  split at h
  · exact runCommand_keeps_inv hs h
  · cases h
    exact (writeReg_inv_iff s v _).mpr hs

/-- A host write inside `DM` keeps the invariant (20_memory.md rule R65). -/
theorem inv_memWrite {s : State} (hs : s.Inv) {addr : Nat} {bs : List Byte}
    (h : dmSpanOk s.dm.size addr bs.length = true) : (s.memWrite addr bs).Inv := by
  obtain ⟨hdm, hstatus, hr⟩ := hs
  exact ⟨wf_writeBytes hdm (of_decide_eq_true h), hstatus, hr⟩

/-- The reset input leaves `DM` and zeroes `STATUS` and `R` (70_reset_and_hazards.md rule R270). -/
theorem inv_resetRegs {s : State} (hs : s.Inv) : s.resetRegs.Inv := by
  obtain ⟨hdm, -, -⟩ := hs
  exact ⟨hdm, rfl, clamp_zeroBytes⟩

/-- Every access of the host keeps the invariant. -/
theorem perform_keeps_inv {a : HostAccess} {s t : State} (hs : s.Inv) (h : perform a s = .next t) : t.Inv := by
  cases a <;> simp only [perform] at h
  case regWrite off v =>
    split at h
    · exact acceptRegWrite_keeps_inv hs h
    · cases h
  case regRead off =>
    split at h <;> cases h
    exact (inv_congr rfl rfl rfl).mpr hs
  case memWrite addr bs =>
    split at h <;> cases h
    exact inv_memWrite hs ‹_›
  case memRead addr n =>
    split at h <;> cases h
    exact (inv_congr rfl rfl rfl).mpr hs
  case assertReset =>
    cases h
    exact inv_resetRegs hs

/-- Settles O57: a step is idle, or performs the next access after taking it from the script, which the invariant
does not look at. -/
theorem everyStepKeepsInvariant : Obligations.EveryStepKeepsInvariant := by
  intro s t hs h
  cases hscript : s.script with
  | nil =>
    rw [step_of_script_nil hscript] at h
    cases h
    exact hs
  | cons a rest =>
    rw [step_of_script_cons hscript] at h
    have htaken : (s.takeAccess rest).Inv := (inv_congr rfl rfl rfl).mpr hs
    exact perform_keeps_inv htaken h

end Sys2Proof.Machine
end

section
/-!
The host's port (10_state.md rules R24, R35): which accesses are accepted, what a step does with each register access,
and the state after reset. Every command completes, so only an access stops the machine.
-/

namespace Sys2Proof.Machine

/-! ### Which accesses are accepted -/

theorem regOffsetOk_iff (off : Nat) : regOffsetOk off = true ↔ off % 4 = 0 ∧ off < 0x1000 := by
  simp [regOffsetOk]

/-- Every command completes (60_exceptions.md rule R248). -/
theorem exec_is_next (i : Instr) (s : State) : ∃ t, exec i s = .next t := by
  rw [exec_eq_complete]
  exact complete_is_next _ _ _

/-- A word that decodes runs its command (30_encoding.md rule R75). -/
theorem runCommand_of_decode {cw : Word} {i : Instr} (h : decode cw = .ok i) (s : State) :
    runCommand cw s = exec i s := by
  simp only [runCommand, h]

/-- Every command word completes, an illegal one too (60_exceptions.md rule R243). -/
theorem runCommand_is_next (cw : Word) (s : State) : ∃ t, runCommand cw s = .next t := by
  cases h : decode cw with
  | error r =>
    simp only [runCommand, h]
    exact complete_is_next _ _ _
  | ok i =>
    rw [runCommand_of_decode h]
    exact exec_is_next i s

/-- A write to a place that is not `CMD` is a write of data. -/
theorem acceptRegWrite_data {off : Nat} (h : regAt off ≠ .cmd) (v : Word) (s : State) :
    acceptRegWrite off v s = .next (s.writeReg v (regAt off)) := by
  unfold acceptRegWrite
  split
  · contradiction
  · rfl

/-- A write to `CMD` issues a command (10_state.md rule R24). -/
theorem acceptRegWrite_cmd {off : Nat} (h : regAt off = .cmd) (v : Word) (s : State) :
    acceptRegWrite off v s = runCommand v s := by
  simp only [acceptRegWrite, h]

theorem acceptRegWrite_is_next (off : Nat) (v : Word) (s : State) : ∃ t, acceptRegWrite off v s = .next t := by
  by_cases h : regAt off = .cmd
  · rw [acceptRegWrite_cmd h]
    exact runCommand_is_next v s
  · exact ⟨_, acceptRegWrite_data h v s⟩

/-- An access answers a next state exactly if the host's interface accepts it (10_state.md rule R35,
20_memory.md rule R65). -/
theorem perform_is_next_iff (a : HostAccess) (s : State) :
    (∃ t, perform a s = .next t) ↔ a.wf s.dm.size = true := by
  cases a with
  | regWrite off v =>
    by_cases h : regOffsetOk off = true
    · simp [perform, HostAccess.wf, h, acceptRegWrite_is_next]
    · simp [perform, HostAccess.wf, h]
  | regRead off => by_cases h : regOffsetOk off = true <;> simp [perform, HostAccess.wf, h]
  | memWrite addr bs => by_cases h : dmSpanOk s.dm.size addr bs.length = true <;> simp [perform, HostAccess.wf, h]
  | memRead addr n => by_cases h : dmSpanOk s.dm.size addr n = true <;> simp [perform, HostAccess.wf, h]
  | assertReset => simp [perform, HostAccess.wf]

/-- Settles O5: a command is a completion, and a step is idle or performs the pending access. -/
theorem engineNeverStops : Obligations.EngineNeverStops := by
  refine ⟨exec_is_next, fun s => ?_⟩
  cases hscript : s.script with
  | nil => simp [step_of_script_nil hscript]
  | cons a rest => simp [step_of_script_cons hscript, perform_is_next_iff]

/-! ### The step of a register access -/

/-- Settles O3: offset 0x000 is `CMD`, and the decoded word runs its command. -/
theorem stepRunsDecodedCommand : Obligations.StepRunsDecodedCommand := by
  intro s cw i rest hscript hdecode
  calc step s = perform (.regWrite 0x000 cw) (s.takeAccess rest) := step_of_script_cons hscript
    _ = runCommand cw (s.takeAccess rest) := rfl
    _ = exec i (s.takeAccess rest) := runCommand_of_decode hdecode _

section
variable {s : State} {off : Nat} {v : Word} {rest : List HostAccess}

/-- An accepted write to a place other than `CMD` writes data. -/
theorem step_regWrite_data (hscript : s.script = .regWrite off v :: rest) (hok : regOffsetOk off = true)
    (hcmd : regAt off ≠ .cmd) : step s = .next ((s.takeAccess rest).writeReg v (regAt off)) := by
  simp only [step_of_script_cons hscript, perform, hok, if_true, acceptRegWrite_data hcmd]

/-- An accepted read replies the word that stands at the offset. -/
theorem step_regRead (hscript : s.script = .regRead off :: rest) (hok : regOffsetOk off = true) :
    step s = .next ((s.takeAccess rest).answer (.word ((s.takeAccess rest).readReg (regAt off)))) := by
  simp only [step_of_script_cons hscript, perform, hok, if_true]

theorem step_regWrite_refused (hscript : s.script = .regWrite off v :: rest) (hbad : regOffsetOk off = false) :
    step s = .refused (.notARegisterAccess off) := by
  simp [step_of_script_cons hscript, perform, hbad]

theorem step_regRead_refused (hscript : s.script = .regRead off :: rest) (hbad : regOffsetOk off = false) :
    step s = .refused (.notARegisterAccess off) := by
  simp [step_of_script_cons hscript, perform, hbad]

end

/-- Settles O54: the offset fails the port's check. -/
theorem misalignedRegisterAccessRefused : Obligations.MisalignedRegisterAccessRefused := by
  intro s off v rest hoff
  have hbad : regOffsetOk off = false := by
    rw [Bool.eq_false_iff, ne_eq, regOffsetOk_iff]
    omega
  exact ⟨fun h => step_regWrite_refused h hbad, fun h => step_regRead_refused h hbad⟩

/-! ### Reset -/

/-- The block just reset beside a `DM` in canonical form meets the invariant. -/
theorem inv_resetWith {dm : Memory} (h : dm.wf = true) (script : List HostAccess) :
    (State.resetWith dm script).Inv :=
  ⟨h, rfl, clamp_zeroBytes⟩

/-- Settles O58: `DM` has a size the spec allows and lists nothing. -/
theorem resetMeetsInvariant : Obligations.ResetMeetsInvariant := by
  obtain ⟨hlo, hhi⟩ := Config.dmBytes_bounds
  exact inv_resetWith (wf_empty hlo hhi) []

end Sys2Proof.Machine
end

section
/-!
The register space (10_state.md rules R35, R36): what stands at each offset, which places take data, and what the
registers read as after a write.
-/

namespace Sys2Proof.Machine

/-! ### The places of the register map -/

/-- Settles O53: each place is found at its offset. -/
theorem registerMap : Obligations.RegisterMap := by
  intro s
  have hread {p : RegWord} {n : Nat} (h : p.offsetOf = some n) : s.readReg (regAt n) = s.readReg p := by
    rw [regAt_of_offset h]
  refine ⟨rfl, rfl, rfl, rfl, fun j => ⟨?_, ?_, ?_⟩, fun j => ?_, fun j => ⟨?_, ?_, ?_, ?_, ?_⟩, fun j => ⟨?_, ?_⟩⟩
  · exact hread (p := .key j) rfl
  · exact hread (p := .pk j) rfl
  · exact hread (p := .subkey j) rfl
  · exact hread (p := .nonce j) rfl
  · exact hread (p := .blk j) rfl
  · exact hread (p := .tref j) rfl
  · exact hread (p := .r j) rfl
  · exact hread (p := .s j) rfl
  · exact hread (p := .tag j) rfl
  · exact hread (p := .x j) rfl
  · exact hread (p := .ob j) rfl

/-- The places that a write of data changes: the read/write registers (10_state.md rules R20, R35). -/
def RegWord.readWrite : RegWord → Bool
  | .src | .dst | .len | .key _ | .nonce _ | .blk _ | .tref _ | .pk _ | .x _ => true
  | .cmd | .status | .subkey _ | .ob _ | .r _ | .s _ | .tag _ | .reserved => false

/-- The reserved offsets are those where the map has no register (10_state.md rule R35). -/
theorem regAt_eq_reserved_iff {off : Nat} (hal : off % 4 = 0) (hlt : off < 0x1000) :
    regAt off = .reserved ↔ reservedOffset off := by
  constructor
  · intro h
    unfold reservedOffset
    by_contra hmap
    obtain ⟨k, rfl⟩ : ∃ k, off = 4 * k := ⟨off / 4, by omega⟩
    have hk : k < 92 := by omega
    interval_cases k <;> first | omega | cases h
  · intro h
    unfold reservedOffset at h
    unfold regAt
    repeat rw [if_neg (by omega)]
    repeat rw [dif_neg (by omega)]

/-- The host-writable offsets are those of the read/write registers. -/
theorem hostWritable_iff {off : Nat} (hal : off % 4 = 0) (hlt : off < 0x1000) :
    hostWritable off ↔ (regAt off).readWrite = true := by
  unfold hostWritable
  cases hp : regAt off
  case reserved =>
    have hres := (regAt_eq_reserved_iff hal hlt).mp hp
    unfold reservedOffset at hres
    simp only [RegWord.readWrite, Bool.false_eq_true, iff_false]
    omega
  all_goals
    have hoff := regAt_offset hal (congrArg RegWord.offsetOf hp)
    simp only [RegWord.readWrite, iff_true, Bool.false_eq_true, iff_false]
    omega

/-- A place that is not read/write takes no data (10_state.md rule R36). -/
theorem writeReg_of_not_readWrite {p : RegWord} (h : p.readWrite = false) (s : State) (v : Word) :
    s.writeReg v p = s := by
  cases p <;> first | rfl | cases h

/-- The next access and the reply are no registers. -/
@[simp] theorem readReg_takeAccess (s : State) (rest : List HostAccess) (p : RegWord) :
    (s.takeAccess rest).readReg p = s.readReg p := by
  cases p <;> rfl

@[simp] theorem readReg_answer (s : State) (r : Reply) (p : RegWord) : (s.answer r).readReg p = s.readReg p := by
  cases p <;> rfl

@[simp] theorem writeReg_dm (s : State) (v : Word) (p : RegWord) : (s.writeReg v p).dm = s.dm := by
  cases p <;> rfl

@[simp] theorem writeReg_script (s : State) (v : Word) (p : RegWord) : (s.writeReg v p).script = s.script := by
  cases p <;> rfl

theorem regAt_eq_cmd {off : Nat} (hal : off % 4 = 0) (h : regAt off = .cmd) : off = 0x000 :=
  regAt_offset hal (by rw [h]; rfl)

/-- Settles O52: a place that is neither `CMD` nor read/write takes no data, and a read only replies. -/
theorem readOnlyAndReservedOffsets : Obligations.ReadOnlyAndReservedOffsets := by
  intro s off rest hal hlt
  have hok : regOffsetOk off = true := (regOffsetOk_iff off).mpr ⟨hal, hlt⟩
  refine ⟨?_, fun v hne hro hscript => ?_, fun hscript => ?_⟩
  · rintro (rfl | hres)
    · rfl
    · rw [(regAt_eq_reserved_iff hal hlt).mpr hres]
      rfl
  · have hplace : (regAt off).readWrite = false := by
      rwa [hostWritable_iff hal hlt, Bool.not_eq_true] at hro
    rw [step_regWrite_data hscript hok (mt (regAt_eq_cmd hal) hne), writeReg_of_not_readWrite hplace]
    rfl
  · rw [step_regRead hscript hok, readReg_takeAccess]
    rfl

/-! ### What reads back after a write -/

/-- A word put into a byte array is read back there. -/
theorem ld32_putWord_same {n : Nat} (a : Bytes n) (o : Nat) (v : Word) (h : o + 4 ≤ n) :
    ld32 (putWord a o v h) o h = v := by
  calc ld32 (putWord a o v h) o h = ld32 (st32 v) 0 := by simp [ld32, putWord]
    _ = v := ld32_st32 v

/-- A word put into a byte array leaves the words beside it. -/
theorem ld32_putWord_other {n : Nat} (a : Bytes n) (o o' : Nat) (v : Word) (h : o + 4 ≤ n) (h' : o' + 4 ≤ n)
    (hne : o' + 4 ≤ o ∨ o + 4 ≤ o') : ld32 (putWord a o v h) o' h' = ld32 a o' h' := by
  have hbyte (i : Nat) (hi : i < n) (hout : i < o ∨ o + 4 ≤ i) : (putWord a o v h)[i] = a[i] := by
    unfold putWord
    repeat rw [Vector.getElem_set_ne _ _ (by omega)]
  unfold ld32
  rw [hbyte o' (by omega) (by omega), hbyte (o' + 1) (by omega) (by omega), hbyte (o' + 2) (by omega) (by omega),
    hbyte (o' + 3) (by omega) (by omega)]

/-- A word put into one place of a byte-array register leaves its other words. -/
theorem ld32_putWord_word {n k : Nat} (a : Bytes n) {j j' : Fin k} (v : Word) (h : 4 * j.val + 4 ≤ n)
    (h' : 4 * j'.val + 4 ≤ n) (hne : j' ≠ j) :
    ld32 (putWord a (4 * j.val) v h) (4 * j'.val) h' = ld32 a (4 * j'.val) h' :=
  ld32_putWord_other a _ _ v h h' (by omega)

/-- A read/write place reads as the word written to it. -/
theorem readReg_writeReg_same {p : RegWord} (hp : p.readWrite = true) (s : State) (v : Word) :
    (s.writeReg v p).readReg p = v := by
  cases p
  case cmd | status | subkey | ob | r | s | tag | reserved => cases hp
  case src | dst | len => rfl
  case key | nonce | blk | tref | pk => exact ld32_putWord_same _ _ v _
  case x i => exact Vector.getElem_set_self _

/-- Every other place reads as before. -/
theorem readReg_writeReg_other {p q : RegWord} (hne : q ≠ p) (s : State) (v : Word) :
    (s.writeReg v p).readReg q = s.readReg q := by
  cases p
  case cmd | status | subkey | ob | r | s | tag | reserved => rfl
  case src | dst | len => cases q <;> first | rfl | exact absurd rfl hne
  case key | nonce | blk | tref | pk =>
    cases q <;> first | rfl | exact ld32_putWord_word _ v (by omega) (by omega) (by simpa using hne)
  case x i =>
    cases q
    case x k => exact Vector.getElem_set_ne i.isLt k.isLt (by simpa [Fin.ext_iff, eq_comm] using hne)
    all_goals rfl

/-- Every read/write place has an offset, so no second aligned offset names it. -/
theorem regAt_ne_of_readWrite {off off' : Nat} (hal : off % 4 = 0) (hal' : off' % 4 = 0)
    (hp : (regAt off).readWrite = true) (hne : off' ≠ off) : regAt off' ≠ regAt off := by
  intro heq
  obtain ⟨n, hn⟩ : ∃ n, (regAt off).offsetOf = some n := by
    cases h : regAt off <;> rw [h] at hp <;> first | exact ⟨_, rfl⟩ | cases hp
  exact hne ((regAt_offset hal' (heq ▸ hn)).trans (regAt_offset hal hn).symm)

/-- Settles O51: the write puts the word into its place and the read replies what stands there. -/
theorem registerReadback : Obligations.RegisterReadback := by
  intro s off v rest hal hw hscript
  have hlt : off < 0x1000 := by
    unfold hostWritable at hw
    omega
  have hok : regOffsetOk off = true := (regOffsetOk_iff off).mpr ⟨hal, hlt⟩
  have hp : (regAt off).readWrite = true := (hostWritable_iff hal hlt).mp hw
  have hcmd : regAt off ≠ .cmd := by
    intro h
    rw [h] at hp
    cases hp
  refine ⟨_, _, step_regWrite_data hscript hok hcmd, step_regRead (rest := rest) (by simp) hok, ?_, rfl, by simp,
    fun off' hal' hne => ?_⟩
  · simp [readReg_writeReg_same hp]
  · simp [readReg_writeReg_other (regAt_ne_of_readWrite hal hal' hp hne)]

end Sys2Proof.Machine
end

section
/-!
What the commands touch (10_state.md rule R41): the registers and the part of `DM` that each may change, and that its
code and its results depend on the operands it reads and on nothing else. Each is proved of the bodies and carried over
to the commands.
-/

namespace Sys2Proof.Machine

/-! ### What a command writes -/

/-- `u` differs from `s` at most in what the command writes besides `STATUS` (10_state.md rule R41, column
"writes"). -/
def writtenFrom (i : Instr) (s u : State) : Prop :=
  match i with
  | .scinit _ | .scperm => ∃ v, u = s.setX v
  | .ksblk _ => ∃ v, u = s.setOb v
  | .xsubkey => ∃ v, u = s.setSubkey v
  | .pclamp => ∃ r m, u = s.setMacKey r m
  | .pmac => ∃ r m v, u = (s.setMacKey r m).setTag v
  | .tvfy => u = s
  | .sxor _ _ | .xsxor _ | .sealBox | .openBox => ∃ out, u = s.writeOutput out

/-- Writing back what stands there, or no bytes, is writing nothing. -/
theorem writtenFrom_refl (i : Instr) (s : State) : writtenFrom i s s := by
  cases i
  case scinit | scperm => exact ⟨s.x, rfl⟩
  case ksblk => exact ⟨s.ob, rfl⟩
  case xsubkey => exact ⟨s.subkey, rfl⟩
  case pclamp => exact ⟨s.rReg, s.sReg, rfl⟩
  case pmac => exact ⟨s.rReg, s.sReg, s.tag, rfl⟩
  case tvfy => rfl
  case sxor | xsxor | sealBox | openBox => exact ⟨[], rfl⟩

/-- A body that succeeds writes what its command writes. -/
theorem commandBody_writtenFrom {i : Instr} {s u : State} (h : commandBody i s = .ok u) : writtenFrom i s u := by
  cases i
  case scinit | scperm | ksblk | xsubkey =>
    cases h
    exact ⟨_, rfl⟩
  case pclamp =>
    cases h
    exact ⟨_, _, rfl⟩
  case pmac =>
    obtain ⟨_, -, hu⟩ := bind_eq_ok h
    cases hu
    exact ⟨_, _, _, rfl⟩
  case tvfy =>
    obtain ⟨_, -, hu⟩ := bind_eq_ok h
    cases hu
    rfl
  case sxor | xsxor =>
    obtain ⟨_, -, hu⟩ := bind_eq_ok h
    cases hu
    exact ⟨_, rfl⟩
  case sealBox | openBox =>
    obtain ⟨_, -, hbox⟩ := bind_eq_ok h
    obtain ⟨_, -, hu⟩ := bind_eq_ok hbox
    cases hu
    exact ⟨_, rfl⟩

/-- A command changes what it writes and `STATUS`, whatever code it ends with. -/
theorem exec_writtenFrom {i : Instr} {s t : State} (h : exec i s = .next t) :
    ∃ u code, writtenFrom i s u ∧ t = u.finish i.opcode code := by
  obtain ⟨u, hbody, rfl⟩ | ⟨c, -, rfl⟩ := exec_cases h
  · exact ⟨u, .ok, commandBody_writtenFrom hbody, rfl⟩
  · exact ⟨s, c, writtenFrom_refl i s, rfl⟩

/-- Settles O48: no update of a command reaches another register, and completion reaches `STATUS` only. -/
theorem commandsWriteOnlyTheirRegisters : Obligations.CommandsWriteOnlyTheirRegisters := by
  intro i s t h
  obtain ⟨u, code, hu, rfl⟩ := exec_writtenFrom h
  cases i
  case tvfy =>
    cases hu
    simp
  case scinit | scperm | ksblk | xsubkey =>
    obtain ⟨v, rfl⟩ := hu
    simp
  case pclamp =>
    obtain ⟨r, m, rfl⟩ := hu
    simp
  case pmac =>
    obtain ⟨r, m, v, rfl⟩ := hu
    simp
  case sxor | xsxor | sealBox | openBox =>
    obtain ⟨out, rfl⟩ := hu
    simp [State.writeOutput]

/-! ### What a command leaves in `DM` -/

/-- A command leaves `DM`, or has an output view and writes bytes to it (20_memory.md rule R54). -/
theorem writtenFrom_dm {i : Instr} {s u : State} (h : writtenFrom i s u) :
    u.dm = s.dm ∨ (writesView i = true ∧ ∃ out, u.dm = s.dm.writeBytes s.dst.toNat out) := by
  cases i
  case tvfy => exact .inl (congrArg State.dm h)
  case scinit | scperm | ksblk | xsubkey =>
    obtain ⟨v, rfl⟩ := h
    exact .inl rfl
  case pclamp =>
    obtain ⟨r, m, rfl⟩ := h
    exact .inl rfl
  case pmac =>
    obtain ⟨r, m, v, rfl⟩ := h
    exact .inl rfl
  case sxor | xsxor | sealBox | openBox =>
    obtain ⟨out, rfl⟩ := h
    exact .inr ⟨rfl, out, rfl⟩

/-- The size of `DM` never changes (20_memory.md rule R50). -/
theorem exec_dm_size {i : Instr} {s t : State} (h : exec i s = .next t) : t.dm.size = s.dm.size := by
  obtain ⟨u, code, hu, rfl⟩ := exec_writtenFrom h
  obtain hdm | ⟨-, out, hdm⟩ := writtenFrom_dm hu
  · rw [finish_dm, hdm]
  · rw [finish_dm, hdm, writeBytes_size]

/-- A command without an output view leaves `DM`. -/
theorem exec_dm_of_no_view {i : Instr} {s t : State} (h : exec i s = .next t) (hi : writesView i = false) :
    t.dm = s.dm := by
  obtain ⟨u, code, hu, rfl⟩ := exec_writtenFrom h
  obtain hdm | ⟨hview, -⟩ := writtenFrom_dm hu
  · exact hdm
  · rw [hi] at hview
    cases hview

/-- A command leaves every byte outside the output view, whatever code it ends with. -/
theorem exec_dm_outside {i : Instr} {s t : State} (h : exec i s = .next t) {a : Nat}
    (ha : a < s.dst.toNat ∨ s.dst.toNat + s.len.toNat ≤ a) : t.dm.readByte a = s.dm.readByte a := by
  obtain ⟨u, hbody, rfl⟩ | ⟨c, -, rfl⟩ := exec_cases h
  · obtain hdm | ⟨-, out, hlen, hdm⟩ := commandBody_dm hbody
    · rw [finish_dm, hdm]
    · rw [finish_dm, hdm, readByte_writeBytes_outside _ _ _ _ (by rwa [hlen])]
  · rfl

/-- Settles O49: of what the commands write, only the output view lies in `DM`. -/
theorem commandMemoryFrame : Obligations.CommandMemoryFrame :=
  fun _ _ _ h => ⟨exec_dm_size h, exec_dm_of_no_view h, fun _ => exec_dm_outside h⟩

/-! ### What a command depends on -/

section
variable {s t : State} {ks ni : Bool}

theorem selectedKey_congr (h : if ks then s.subkey = t.subkey else s.key = t.key) :
    s.selectedKey ks = t.selectedKey ks := by
  cases ks <;> exact h

/-- The subkey depends on the first 16 bytes of the nonce (42_xsalsa20.md rule R150). -/
theorem deriveSubkey_congr {n n' : Bytes 24} (h : n.toList.take 16 = n'.toList.take 16) (key : Bytes 32) :
    deriveSubkey n key = deriveSubkey n' key := by
  have hslice : slice n 0 16 = slice n' 0 16 := by simpa [← Vector.toList_inj] using h
  rw [deriveSubkey, hslice, deriveSubkey]

/-- The stream nonce is the last 8 bytes of the nonce (41_salsa20_stream.md rule R136). -/
theorem streamNonce_congr {n n' : Bytes 24} (h : n.toList.drop 16 = n'.toList.drop 16) :
    streamNonce n = streamNonce n' := by
  simp [streamNonce, ← Vector.toList_inj, h]

theorem inputFits_congr (hsrc : s.src = t.src) (hlen : s.len = t.len) (hsize : s.dm.size = t.dm.size) :
    s.inputFits = t.inputFits := by
  rw [State.inputFits, hsrc, hlen, hsize, State.inputFits]

theorem outputFits_congr (hdst : s.dst = t.dst) (hlen : s.len = t.len) (hsize : s.dm.size = t.dm.size) :
    s.outputFits = t.outputFits := by
  rw [State.outputFits, hdst, hlen, hsize, State.outputFits]

theorem viewsClash_congr (hsrc : s.src = t.src) (hdst : s.dst = t.dst) (hlen : s.len = t.len) :
    s.viewsClash = t.viewsClash := by
  rw [State.viewsClash, hsrc, hdst, hlen, State.viewsClash]

/-- With `NI` the checks of `SXOR` and `XSXOR` do not look at `SRC` (41_salsa20_stream.md rule R136). -/
theorem streamChecks_congr (hdst : s.dst = t.dst) (hlen : s.len = t.len) (hsize : s.dm.size = t.dm.size)
    (hviews : ni = false → sameViews s t) : s.streamChecks ni = t.streamChecks ni := by
  rw [streamChecks_eq, streamChecks_eq, outputFits_congr hdst hlen hsize]
  cases ni with
  | true => rfl
  | false =>
    obtain ⟨hsrc, -⟩ := hviews rfl
    rw [inputFits_congr hsrc hlen hsize, viewsClash_congr hsrc hdst hlen]

theorem boxChecks_congr (h : sameViews s t) : s.boxChecks = t.boxChecks := by
  obtain ⟨hsrc, hdst, hlen, hsize, -⟩ := h
  rw [boxChecks_eq, boxChecks_eq, inputFits_congr hsrc hlen hsize, outputFits_congr hdst hlen hsize,
    viewsClash_congr hsrc hdst hlen, hlen]

theorem streamInput_congr (hviews : ni = false → sameViews s t) : s.streamInput ni = t.streamInput ni := by
  cases ni with
  | true => rfl
  | false =>
    obtain ⟨-, -, -, -, hinput⟩ := hviews rfl
    exact congrArg some hinput

/-- Two states that write the same `LEN` bytes to their output views agree on them. -/
theorem sameOutputView_writeOutput (hlen : s.len = t.len) {out : List Byte}
    (hout : out.length = s.len.toNat) : sameOutputView (s.writeOutput out) (t.writeOutput out) := by
  have hs : (s.writeOutput out).dm.readBytes s.dst.toNat s.len.toNat = out := by
    rw [← hout]
    exact readBytes_writeBytes_same _ _ _
  have ht : (t.writeOutput out).dm.readBytes t.dst.toNat t.len.toNat = out := by
    rw [← hlen, ← hout]
    exact readBytes_writeBytes_same _ _ _
  exact hs.trans ht.symm

end

/-- Two bodies end alike: both raise the same code, or both succeed with the same results. -/
def sameAnswer (i : Instr) : Except Code State → Except Code State → Prop
  | .ok u, .ok u' => sameResults i u u'
  | .error c, .error c' => c = c'
  | .ok _, .error _ => False
  | .error _, .ok _ => False

/-- After a common first part it is enough that the rests end alike. -/
theorem sameAnswer_bind {i : Instr} {α : Type} (x : Except Code α) {f g : α → Except Code State}
    (h : ∀ a, x = .ok a → sameAnswer i (f a) (g a)) : sameAnswer i (x >>= f) (x >>= g) := by
  cases x with
  | ok a => exact h a rfl
  | error c => exact (rfl : c = c)

/-- A body ends alike in two states that agree on what the command reads. -/
theorem commandBody_sameAnswer {i : Instr} {s s' : State} (h : sameOperands i s s') :
    sameAnswer i (commandBody i s) (commandBody i s') := by
  cases i
  case scinit ks =>
    obtain ⟨hblk, hkey⟩ := h
    change buildState s.blk (s.selectedKey ks) = buildState s'.blk (s'.selectedKey ks)
    rw [hblk, selectedKey_congr hkey]
  case scperm => exact congrArg perm20 h
  case ksblk ks =>
    obtain ⟨hblk, hkey⟩ := h
    change coreStream s.blk (s.selectedKey ks) = coreStream s'.blk (s'.selectedKey ks)
    rw [hblk, selectedKey_congr hkey]
  case xsubkey =>
    obtain ⟨hkey, hnonce⟩ := h
    change deriveSubkey s.nonce s.key = deriveSubkey s'.nonce s'.key
    rw [hkey, deriveSubkey_congr hnonce]
  case sxor ks ni =>
    obtain ⟨hnonce, hkey, hdst, hlen, hsize, hviews⟩ := h
    simp only [commandBody, ← streamChecks_congr hdst hlen hsize hviews, ← streamInput_congr hviews, ← hlen,
      ← streamNonce_congr hnonce, ← selectedKey_congr hkey]
    exact sameAnswer_bind _ fun _ _ =>
      sameOutputView_writeOutput hlen (streamXor_length _ _ _ _ (streamInput_length s ni))
  case xsxor ni =>
    obtain ⟨hkey, hnonce, hdst, hlen, hsize, hviews⟩ := h
    simp only [commandBody, ← streamChecks_congr hdst hlen hsize hviews, ← streamInput_congr hviews, ← hlen,
      ← hnonce, ← hkey]
    exact sameAnswer_bind _ fun _ _ =>
      sameOutputView_writeOutput hlen (xsalsa20Xor_length _ _ _ _ (streamInput_length s ni))
  case pclamp => exact ⟨congrArg (fun pk => clamp (keyHalfR pk)) h, congrArg keyHalfS h⟩
  case pmac =>
    obtain ⟨hpk, hsrc, hlen, hsize, hinput⟩ := h
    simp only [commandBody, ← inputFits_congr hsrc hlen hsize, ← hpk, ← hinput]
    exact sameAnswer_bind _ fun _ _ => ⟨rfl, rfl, rfl⟩
  case tvfy =>
    obtain ⟨htag, htref⟩ := h
    simp only [commandBody, ← htag, ← htref]
    exact sameAnswer_bind _ fun _ _ => trivial
  case sealBox =>
    obtain ⟨hkey, hnonce, hviews⟩ := h
    obtain ⟨-, -, hlen, -, hinput⟩ := id hviews
    simp only [commandBody, ← boxChecks_congr hviews, ← hinput, ← hlen, ← hnonce, ← hkey]
    exact sameAnswer_bind _ fun _ _ => sameAnswer_bind _ fun _ hout =>
      sameOutputView_writeOutput hlen (secretboxSeal_length (inputView_length s) hout)
  case openBox =>
    obtain ⟨hkey, hnonce, hviews⟩ := h
    obtain ⟨-, -, hlen, -, hinput⟩ := id hviews
    simp only [commandBody, ← boxChecks_congr hviews, ← hinput, ← hlen, ← hnonce, ← hkey]
    exact sameAnswer_bind _ fun _ _ => sameAnswer_bind _ fun _ hout =>
      sameOutputView_writeOutput hlen (secretboxOpen_length (inputView_length s) hout)

/-- Completion leaves the results of a command. -/
theorem sameResults_finish {i : Instr} {u u' : State} (h : sameResults i u u') (op op' : Byte) (c c' : Code) :
    sameResults i (u.finish op c) (u'.finish op' c') := by
  cases i <;> exact h

/-- `OK` is the code of no failure (60_exceptions.md rule R240). -/
theorem commandBody_error_ne_ok {i : Instr} {s : State} {c : Code} (h : commandBody i s = .error c) : c ≠ .ok := by
  cases i
  case scinit | scperm | ksblk | xsubkey | pclamp => cases h
  case pmac | tvfy =>
    obtain hc | ⟨_, -, hu⟩ := bind_eq_error h
    · simp [raiseIf_eq_error hc]
    · cases hu
  case sxor | xsxor =>
    obtain hc | ⟨_, -, hu⟩ := bind_eq_error h
    · obtain rfl | rfl := streamChecks_error hc <;> simp
    · cases hu
  case sealBox =>
    obtain hc | ⟨_, -, hbox⟩ := bind_eq_error h
    · obtain rfl | rfl | rfl := boxChecks_error hc <;> simp
    · obtain hc | ⟨_, -, hu⟩ := bind_eq_error hbox
      · simp [secretboxSeal_error hc]
      · cases hu
  case openBox =>
    obtain hc | ⟨_, -, hbox⟩ := bind_eq_error h
    · obtain rfl | rfl | rfl := boxChecks_error hc <;> simp
    · obtain hc | ⟨_, -, hu⟩ := bind_eq_error hbox
      · obtain rfl | rfl := secretboxOpen_error hc <;> simp
      · cases hu

/-- Settles O50: bodies that end alike give the same code and, with `OK`, the same results. -/
theorem commandsReadOnlyTheirOperands : Obligations.CommandsReadOnlyTheirOperands := by
  intro i s s' t t' hops h h'
  have hsame := commandBody_sameAnswer hops
  obtain ⟨u, hbody, rfl⟩ | ⟨c, hbody, rfl⟩ := exec_cases h <;>
    obtain ⟨u', hbody', rfl⟩ | ⟨c', hbody', rfl⟩ := exec_cases h' <;> rw [hbody, hbody'] at hsame
  · exact ⟨by simp, fun _ => sameResults_finish hsame _ _ _ _⟩
  · cases hsame
  · cases hsame
  · cases hsame
    refine ⟨by simp, fun hok => ?_⟩
    rw [finish_status, completedStatus_code] at hok
    exact absurd (code_bits_injective hok) (commandBody_error_ne_ok hbody)

end Sys2Proof.Machine
end

section
/-!
The data memory (20_memory.md rules R54, R65): what the host's accesses to `DM` do inside its bounds and beyond them,
and, byte by byte, what the stream commands leave in their output view.
-/

namespace Sys2Proof.Machine

/-! ### The host's accesses to `DM` -/

theorem dmSpanOk_iff (size addr n : Nat) : dmSpanOk size addr n = true ↔ addr + n ≤ size := by
  simp [dmSpanOk]

theorem dmSpanOk_eq_false_iff (size addr n : Nat) : dmSpanOk size addr n = false ↔ size < addr + n := by
  simp [dmSpanOk]

/-- `MemRead` as the list of the bytes that it reads (20_memory.md rule R65). -/
theorem readBytes_eq_map_range (m : Memory) (addr n : Nat) :
    m.readBytes addr n = (List.range n).map fun i => m.readByte (addr + i) := by
  apply List.ext_getElem
  · simp
  · intro i hi _
    simp [readBytes_getElem _ _ _ _ hi]

section
variable {s : State} {addr n : Nat} {bs : List Byte} {rest : List HostAccess}

/-- A write inside `DM` is carried out on the bytes that it names. -/
theorem step_memWrite (hscript : s.script = .memWrite addr bs :: rest) (hfits : addr + bs.length ≤ s.dm.size) :
    step s = .next ((s.takeAccess rest).memWrite addr bs) := by
  simp only [step_of_script_cons hscript, perform, takeAccess_dm, (dmSpanOk_iff ..).mpr hfits, if_true]

/-- A read inside `DM` replies the bytes that it names. -/
theorem step_memRead (hscript : s.script = .memRead addr n :: rest) (hfits : addr + n ≤ s.dm.size) :
    step s = .next ((s.takeAccess rest).answer (.bytes (s.dm.readBytes addr n))) := by
  simp only [step_of_script_cons hscript, perform, takeAccess_dm, (dmSpanOk_iff ..).mpr hfits, if_true]

theorem step_memWrite_fault (hscript : s.script = .memWrite addr bs :: rest) (hpast : s.dm.size < addr + bs.length) :
    step s = .fault (.noSuchDmAddress addr bs.length) := by
  simp [step_of_script_cons hscript, perform, (dmSpanOk_eq_false_iff ..).mpr hpast]

theorem step_memRead_fault (hscript : s.script = .memRead addr n :: rest) (hpast : s.dm.size < addr + n) :
    step s = .fault (.noSuchDmAddress addr n) := by
  simp [step_of_script_cons hscript, perform, (dmSpanOk_eq_false_iff ..).mpr hpast]

end

/-- Settles O56: the access fails the port's bounds check. -/
theorem hostMemoryOutsideDmFaults : Obligations.HostMemoryOutsideDmFaults :=
  fun _ _ _ => ⟨fun _ hpast hscript => step_memWrite_fault hscript hpast,
    fun _ hpast hscript => step_memRead_fault hscript hpast⟩

/-- Settles O55: the access passes the port's bounds check, and the laws of `DM` say what its bytes read as. -/
theorem hostMemoryAccess : Obligations.HostMemoryAccess := by
  intro s addr rest
  refine ⟨fun bs hfits hscript => ?_, fun n hfits hscript => ?_⟩
  · exact ⟨_, step_memWrite hscript hfits, rfl, writeBytes_size .., readByte_writeBytes_inside _ _ _,
      readByte_writeBytes_outside _ _ _⟩
  · rw [step_memRead hscript hfits, readBytes_eq_map_range]
    rfl

/-! ### What the stream commands leave in the output view -/

/-- A command that reports `OK` has succeeded in its body. -/
theorem commandBody_of_exec_ok {i : Instr} {s t : State} (h : exec i s = .next t)
    (hok : statusCode t.status = Code.ok.bits) : ∃ u, commandBody i s = .ok u ∧ t = u.finish i.opcode .ok := by
  obtain hu | ⟨c, hbody, rfl⟩ := exec_cases h
  · exact hu
  · rw [finish_status, completedStatus_code] at hok
    exact absurd (code_bits_injective hok) (commandBody_error_ne_ok hbody)

/-- A command that writes `out` after the checks of the stream commands, and reports `OK`, has written it. -/
theorem exec_stream_dm {i : Instr} {ni : Bool} {out : List Byte} {s t : State}
    (hstream : commandBody i s = s.streamChecks ni >>= fun _ => .ok (s.writeOutput out))
    (h : exec i s = .next t) (hok : statusCode t.status = Code.ok.bits) :
    t.dm = s.dm.writeBytes s.dst.toNat out := by
  obtain ⟨u, hbody, rfl⟩ := commandBody_of_exec_ok h hok
  obtain ⟨_, -, hu⟩ := bind_eq_ok (hstream.symm.trans hbody)
  cases hu
  rfl

/-- Byte `k` of a stream XOR of the command's input, an absent one counting as zeros (41_salsa20_stream.md rule
R132). -/
theorem streamXor_streamInput_getElem? (s : State) (ni : Bool) (sn : Bytes 8) (key : Bytes 32) (k : Nat) :
    (streamXor (s.streamInput ni) s.len sn key)[k]? =
      (keystream sn key s.len)[k]?.map fun b => (if ni then 0 else s.dm.readByte (s.src.toNat + k)) ^^^ b := by
  cases ni with
  | true => simp [State.streamInput, streamXor]
  | false =>
    change (xorBytes s.inputView (keystream sn key s.len))[k]? = _
    by_cases hk : k < s.len.toNat
    · rw [List.getElem?_eq_getElem (by simpa using hk), List.getElem?_eq_getElem (by simpa using hk),
        xorBytes_getElem _ _ _ (by simpa using hk)]
      simp [State.inputView, readBytes_getElem]
    · rw [List.getElem?_eq_none (by simpa using hk), List.getElem?_eq_none (by simpa using hk)]
      rfl

/-- Where a stream XOR of the command's input was written to the output view, each byte of the view is the input byte,
or zero without an input, XOR the keystream byte (20_memory.md rule R54, 41_salsa20_stream.md rule R132). -/
theorem readByte_stream_output {s t : State} {ni : Bool} {sn : Bytes 8} {key : Bytes 32}
    (hdm : t.dm = s.dm.writeBytes s.dst.toNat (streamXor (s.streamInput ni) s.len sn key)) {k : Nat}
    (hk : k < s.len.toNat) :
    some (t.dm.readByte (s.dst.toNat + k)) =
      (keystream sn key s.len)[k]?.map fun b => (if ni then 0 else s.dm.readByte (s.src.toNat + k)) ^^^ b := by
  have hlen : k < (streamXor (s.streamInput ni) s.len sn key).length := by
    rwa [streamXor_length _ _ _ _ (streamInput_length s ni)]
  rw [← streamXor_streamInput_getElem?, hdm, readByte_writeBytes_inside _ _ _ _ hlen, List.getElem?_eq_getElem hlen]

/-- Settles O36: with `OK` the command has written the stream XOR of its input, and no command touches the bytes outside
its output view. -/
theorem streamOutputBytes : Obligations.StreamOutputBytes := by
  intro ni s t
  refine ⟨fun ks h hok => ?_, fun h hok => ?_⟩
  · have hdm : t.dm = s.dm.writeBytes s.dst.toNat
        (streamXor (s.streamInput ni) s.len (streamNonce s.nonce) (s.selectedKey ks)) := exec_stream_dm rfl h hok
    exact ⟨fun _ => readByte_stream_output hdm, fun _ => exec_dm_outside h⟩
  · have hdm : t.dm = s.dm.writeBytes s.dst.toNat
        (streamXor (s.streamInput ni) s.len (streamNonce s.nonce) (deriveSubkey s.nonce s.key)) :=
      exec_stream_dm rfl h hok
    exact ⟨fun _ => readByte_stream_output hdm, fun _ => exec_dm_outside h⟩

end Sys2Proof.Machine
end

section
/-!
The command word (30_encoding.md rules R70 to R78). Its four fields determine it, and the decoder and the encoder are
each said once in these fields: that they agree, and which words are illegal, is then read off.
-/

namespace Sys2Proof.Machine

/-! ### The fields of a word -/

/-- The fields of rule R70 cover the 32 bits of a command word: words with equal fields are equal. -/
theorem word_eq_iff_fields {cw cw' : Word} :
    cw = cw' ↔ cwReserved cw = cwReserved cw' ∧ cwOp cw = cwOp cw' ∧ cwKs cw = cwKs cw' ∧ cwNi cw = cwNi cw' := by
  refine ⟨fun h => h ▸ ⟨rfl, rfl, rfl, rfl⟩, fun ⟨hres, hop, hks, hni⟩ => ?_⟩
  refine BitVec.eq_of_getLsbD_eq fun k hk => ?_
  obtain hk | rfl | rfl | ⟨j, rfl⟩ : k < 8 ∨ k = 8 ∨ k = 9 ∨ ∃ j, k = 10 + j := by
    by_cases h : k < 10
    · omega
    · exact .inr (.inr (.inr ⟨k - 10, by omega⟩))
  · simpa [cwOp, hk] using congrArg (·.getLsbD k) hop
  · exact hks
  · exact hni
  · have hj : j < 22 := by omega
    simpa [cwReserved, hj] using congrArg (·.getLsbD j) hres

/-- The reserved bits 31:10 are the two reserved fields of rule R70. -/
theorem cwReserved_eq_zero_iff (cw : Word) :
    cwReserved cw = 0 ↔ cw.extractLsb' 16 16 = 0 ∧ cw.extractLsb' 10 6 = 0 := by
  simp only [cwReserved, ← BitVec.toNat_inj, BitVec.extractLsb'_toNat, Nat.shiftRight_eq_div_pow,
    BitVec.ofNat_eq_ofNat, BitVec.toNat_ofNat]
  omega

theorem ksAllowed_iff (op : Byte) : ksAllowed op = true ↔ op = 0x01 ∨ op = 0x03 ∨ op = 0x05 := by
  simp [ksAllowed, or_assoc]

theorem niAllowed_iff (op : Byte) : niAllowed op = true ↔ op = 0x05 ∨ op = 0x06 := by
  simp [niAllowed]

/-! ### The encoder -/

/-- The laws of the command words, for every command. -/
theorem wordShape (i : Instr) : Laws.WordShape.Statement i := by
  cases i with
  | scinit ks => exact Laws.WordShape.scinit ks
  | scperm => exact Laws.WordShape.scperm
  | ksblk ks => exact Laws.WordShape.ksblk ks
  | xsubkey => exact Laws.WordShape.xsubkey
  | sxor ks ni => exact Laws.WordShape.sxor ks ni
  | xsxor ni => exact Laws.WordShape.xsxor ni
  | pclamp => exact Laws.WordShape.pclamp
  | pmac => exact Laws.WordShape.pmac
  | tvfy => exact Laws.WordShape.tvfy
  | sealBox => exact Laws.WordShape.sealBox
  | openBox => exact Laws.WordShape.openBox

/-- A word is a command's word exactly if its fields are that command's. -/
theorem eq_encode_iff (cw : Word) (i : Instr) :
    cw = encode i ↔ cwReserved cw = 0 ∧ cwOp cw = i.opcode ∧ cwKs cw = i.ksBit ∧ cwNi cw = i.niBit := by
  obtain ⟨hres, hop, -, -, hks, hni, -, -⟩ := wordShape i
  rw [word_eq_iff_fields, hres, hop, hks, hni]

/-! ### The decoder -/

/-- The opcode map finds a command at its operation code, with its own flags (rule R71). -/
@[simp] theorem commandOf_opcode (i : Instr) : commandOf i.opcode i.ksBit i.niBit = some i := by
  cases i <;> rfl

/-- What the opcode map finds at an operation code has that code, and of the flags those that the operation allows
(rules R71, R72). -/
theorem commandOf_eq_some {op : Byte} {ks ni : Bool} {i : Instr} (h : commandOf op ks ni = some i) :
    op = i.opcode ∧ (ks && ksAllowed op) = i.ksBit ∧ (ni && niAllowed op) = i.niBit := by
  revert h
  fun_cases commandOf op ks ni
  case case12 => exact nofun
  all_goals
    rintro ⟨⟩
    simp [*, Instr.opcode, Instr.ksBit, Instr.niBit, ksAllowed, niAllowed]

/-- The opcode map is empty at 0x00 and from 0x0C on (rule R71). -/
theorem commandOf_eq_none_iff (op : Byte) (ks ni : Bool) :
    commandOf op ks ni = none ↔ op = 0x00 ∨ 0x0B < op.toNat := by
  fun_cases commandOf op ks ni
  case case12 =>
    simp only [true_iff]
    bv_omega
  all_goals simp [*]

/-- The decoder accepts a word exactly if it passes all four checks of rule R75. -/
theorem decode_eq_ok_iff {cw : Word} {i : Instr} :
    decode cw = .ok i ↔ cwReserved cw = 0 ∧ commandOf (cwOp cw) (cwKs cw) (cwNi cw) = some i
      ∧ (cwKs cw = true → ksAllowed (cwOp cw) = true) ∧ (cwNi cw = true → niAllowed (cwOp cw) = true) := by
  fun_cases decode cw <;> simp_all

/-- The decoder by the fields: it reads a command from a word exactly if the word's fields are that command's. -/
theorem decode_eq_ok_iff_fields (cw : Word) (i : Instr) :
    decode cw = .ok i ↔ cwReserved cw = 0 ∧ cwOp cw = i.opcode ∧ cwKs cw = i.ksBit ∧ cwNi cw = i.niBit := by
  rw [decode_eq_ok_iff]
  constructor
  · rintro ⟨hres, hcmd, hks, hni⟩
    obtain ⟨hop, hksBit, hniBit⟩ := commandOf_eq_some hcmd
    have hksAnd : (cwKs cw && ksAllowed (cwOp cw)) = cwKs cw := by simpa using hks
    have hniAnd : (cwNi cw && niAllowed (cwOp cw)) = cwNi cw := by simpa using hni
    exact ⟨hres, hop, hksAnd.symm.trans hksBit, hniAnd.symm.trans hniBit⟩
  · rintro ⟨hres, hop, hksBit, hniBit⟩
    obtain ⟨-, -, -, -, -, -, hks, hni⟩ := wordShape i
    rw [hop, hksBit, hniBit]
    exact ⟨hres, commandOf_opcode i, hks, hni⟩

/-! ### Decoder and encoder -/

/-- Settles O7: decoder and encoder are the same condition on the fields. -/
theorem decodeEncodeExact : Obligations.DecodeEncodeExact := fun cw i =>
  (decode_eq_ok_iff_fields cw i).trans (eq_encode_iff cw i).symm

/-- Settles O6: the encoder gives each row's word, and the decoder is its inverse. -/
theorem commandWordTable : Obligations.CommandWordTable := by
  intro row hrow
  have hencode : encode row.2 = row.1 := by
    revert row
    decide
  exact ⟨(decodeEncodeExact _ _).mpr hencode.symm, hencode⟩

/-! ### Illegal words -/

/-- A word that the decoder rejects completes with `E_ILLCMD` (rules R74, R243). -/
theorem runCommand_of_reject {cw : Word} {e : Reject} (h : decode cw = .error e) (s : State) :
    runCommand cw s = .next (s.finish (cwOp cw) .eIllcmd) := by
  simp only [runCommand, h, complete_error]

/-- A write to `CMD` runs the word as a command (10_state.md rule R24). -/
theorem step_regWrite_cmd {s : State} {cw : Word} {rest : List HostAccess}
    (hscript : s.script = .regWrite 0x000 cw :: rest) : step s = runCommand cw (s.takeAccess rest) :=
  step_of_script_cons hscript

/-- The decoder rejects a word exactly if one of the checks of rule R75 fails. -/
theorem decode_is_error_iff (cw : Word) :
    (∃ e, decode cw = .error e) ↔ cwReserved cw ≠ 0 ∨ commandOf (cwOp cw) (cwKs cw) (cwNi cw) = none
      ∨ (cwKs cw = true ∧ ¬ksAllowed (cwOp cw) = true) ∨ (cwNi cw = true ∧ ¬niAllowed (cwOp cw) = true) := by
  fun_cases decode cw <;> simp_all

/-- The conditions of rule R74 are the failing checks of rule R75. -/
theorem illegalWord_iff (cw : Word) :
    illegalWord cw ↔ cwReserved cw ≠ 0 ∨ commandOf (cwOp cw) (cwKs cw) (cwNi cw) = none
      ∨ (cwKs cw = true ∧ ¬ksAllowed (cwOp cw) = true) ∨ (cwNi cw = true ∧ ¬niAllowed (cwOp cw) = true) := by
  simp only [ne_eq, cwReserved_eq_zero_iff, commandOf_eq_none_iff, ksAllowed_iff, niAllowed_iff, not_and_or, not_or,
    or_assoc]
  rfl

/-- The decoder rejects exactly the illegal words (rule R74). -/
theorem decode_is_error_iff_illegalWord (cw : Word) : (∃ e, decode cw = .error e) ↔ illegalWord cw :=
  (decode_is_error_iff cw).trans (illegalWord_iff cw).symm

/-- A word is legal exactly if it is some command's word. -/
theorem not_illegalWord_iff (cw : Word) : ¬illegalWord cw ↔ ∃ i, cw = encode i := by
  calc ¬illegalWord cw ↔ ¬∃ e, decode cw = .error e := not_congr (decode_is_error_iff_illegalWord cw).symm
    _ ↔ ∃ i, decode cw = .ok i := by cases decode cw <;> simp
    _ ↔ ∃ i, cw = encode i := exists_congr (decodeEncodeExact cw)

/-- The 17 commands with their flags, in the order of rule R78. -/
def allCommands : List Instr :=
  [.scinit false, .scinit true, .scperm, .ksblk false, .ksblk true, .xsubkey, .sxor false false, .sxor true false,
   .sxor false true, .sxor true true, .xsxor false, .xsxor true, .pclamp, .pmac, .tvfy, .sealBox, .openBox]

theorem mem_allCommands (i : Instr) : i ∈ allCommands := by
  cases i with
  | scinit ks | ksblk ks => cases ks <;> simp [allCommands]
  | sxor ks ni => cases ks <;> cases ni <;> simp [allCommands]
  | xsxor ni => cases ni <;> simp [allCommands]
  | scperm | xsubkey | pclamp | pmac | tvfy | sealBox | openBox => simp [allCommands]

/-- The listed legal words are the words of the commands (rule R78). -/
theorem legalWords_eq_map_encode : legalWords = allCommands.map encode := by decide

theorem mem_legalWords_iff (cw : Word) : cw ∈ legalWords ↔ ∃ i, cw = encode i := by
  simp [legalWords_eq_map_encode, mem_allCommands, eq_comm]

/-- Settles O8: the legal words are the words of the commands, and a rejected word completes with no body run. -/
theorem illegalWordsEndInEIllcmd : Obligations.IllegalWordsEndInEIllcmd := by
  intro cw
  have hlegal : ¬illegalWord cw ↔ cw ∈ legalWords := (not_illegalWord_iff cw).trans (mem_legalWords_iff cw).symm
  refine ⟨decode_is_error_iff_illegalWord cw, hlegal, by decide, rfl, fun s rest hillegal hscript => ?_⟩
  obtain ⟨e, he⟩ := (decode_is_error_iff_illegalWord cw).mpr hillegal
  calc step s = runCommand cw (s.takeAccess rest) := step_regWrite_cmd hscript
    _ = .next ((s.takeAccess rest).finish (cwOp cw) .eIllcmd) := runCommand_of_reject he _

end Sys2Proof.Machine
end

section
/-!
The Salsa20 permutation (40_salsa20_core.md rules R102 to R105): the quarter-round and the round have inverses, the
permutation is the round iterated, and the round is the canonical column round, transposed.
-/

namespace Sys2Proof.Machine

/-! ### The quarter-round -/

/-- The model's rotation is the library's (00_scope.md rule R11). -/
theorem rotl32_eq_rotateLeft (a : Word) {n : Nat} (h : n < 32) : rotl32 a n = a.rotateLeft n :=
  (BitVec.rotateLeft_eq_rotateLeftAux_of_lt h).symm

/-- The quarter-round undone: its four updates in reverse order, each undone by the XOR that made it. -/
def unquarter (u : Quad) : Quad :=
  let t0 := u.t0 ^^^ rotl32 (add32 u.t3 u.t2) 18
  let t3 := u.t3 ^^^ rotl32 (add32 u.t2 u.t1) 13
  let t2 := u.t2 ^^^ rotl32 (add32 u.t1 t0) 9
  let t1 := u.t1 ^^^ rotl32 (add32 t0 t3) 7
  ⟨t0, t1, t2, t3⟩

@[simp] theorem unquarter_quarter (t : Quad) : unquarter (quarter t) = t := by
  simp [unquarter, quarter]

@[simp] theorem quarter_unquarter (u : Quad) : quarter (unquarter u) = u := by
  simp [unquarter, quarter]

theorem quad_eta (t : Quad) : ⟨t.t0, t.t1, t.t2, t.t3⟩ = t := rfl

/-- Settles O25: the updates are those of the definition, and `unquarter` is the inverse. -/
theorem quarterRoundRule : Obligations.QuarterRoundRule := by
  refine ⟨fun t => ?_, ?_, by decide⟩
  · simp (disch := decide) [quarter, rotl32_eq_rotateLeft]
  · exact Function.bijective_iff_has_inverse.mpr ⟨unquarter, unquarter_quarter, quarter_unquarter⟩

/-! ### The round -/

/-- A state is the list of its sixteen words. -/
theorem words16_eta (x : Words16) :
    #v[x[0], x[1], x[2], x[3], x[4], x[5], x[6], x[7], x[8], x[9], x[10], x[11], x[12], x[13], x[14], x[15]] = x := by
  refine Vector.ext fun i hi => ?_
  interval_cases i <;> rfl

/-- The round undone: quad `j` is read where the round wrote it, and written back where the round read it
(40_salsa20_core.md rule R103). -/
def unround (w : Words16) : Words16 :=
  let p0 := unquarter ⟨w[0], w[1], w[2], w[3]⟩
  let p1 := unquarter ⟨w[5], w[6], w[7], w[4]⟩
  let p2 := unquarter ⟨w[10], w[11], w[8], w[9]⟩
  let p3 := unquarter ⟨w[15], w[12], w[13], w[14]⟩
  #v[p0.t0, p1.t3, p2.t2, p3.t1,
     p0.t1, p1.t0, p2.t3, p3.t2,
     p0.t2, p1.t1, p2.t0, p3.t3,
     p0.t3, p1.t2, p2.t1, p3.t0]

theorem unround_salsaRound (x : Words16) : unround (salsaRound x) = x := by
  simpa [unround, salsaRound, quad_eta] using words16_eta x

theorem salsaRound_unround (w : Words16) : salsaRound (unround w) = w := by
  simpa [unround, salsaRound, quad_eta] using words16_eta w

theorem salsaRound_bijective : Function.Bijective salsaRound :=
  Function.bijective_iff_has_inverse.mpr ⟨unround, unround_salsaRound, salsaRound_unround⟩

theorem salsaRound_zero : salsaRound (Vector.replicate 16 0) = Vector.replicate 16 0 := by decide

/-- Settles O26: the table of the round's definition, word by word. -/
theorem roundFollowsIndexFormulas : Obligations.RoundFollowsIndexFormulas := by
  intro x j m
  fin_cases j <;> fin_cases m <;> rfl

/-! ### The permutation -/

theorem rounds_eq_iterate (k : Nat) (x : Words16) : rounds k x = salsaRound^[k] x := by
  induction k with
  | zero => rfl
  | succ k ih => rw [rounds, ih, Function.iterate_succ_apply']

theorem perm20_eq_iterate : perm20 = salsaRound^[20] := funext (rounds_eq_iterate 20)

/-- Settles O27: what the round keeps, its iterates keep. -/
theorem perm20IsTwentyRoundsAndBijective : Obligations.Perm20IsTwentyRoundsAndBijective := by
  refine ⟨rounds_eq_iterate 20, ?_, ?_⟩
  · rw [perm20_eq_iterate]
    exact salsaRound_bijective.iterate 20
  · rw [perm20_eq_iterate]
    exact Function.iterate_fixed salsaRound_zero 20

/-! ### The canonical form (40_salsa20_core.md rule R105) -/

/-- The 4 by 4 matrix of a state, transposed. -/
def transpose (x : Words16) : Words16 :=
  #v[x[0], x[4], x[8], x[12],
     x[1], x[5], x[9], x[13],
     x[2], x[6], x[10], x[14],
     x[3], x[7], x[11], x[15]]

theorem transpose_getElem (x : Words16) (i j : Fin 4) :
    (transpose x)[4 * i.val + j.val] = x[4 * j.val + i.val] := by
  fin_cases i <;> fin_cases j <;> rfl

theorem transpose_transpose (x : Words16) : transpose (transpose x) = x := words16_eta x

/-- The in-place quarter-round replaces its four words by those of the quarter-round. -/
theorem quarterAt_eq {a b c d : Fin 16} (h : [a, b, c, d].Nodup) (x : Words16) :
    quarterAt a b c d x =
      let q := quarter ⟨x[a], x[b], x[c], x[d]⟩
      (((x.set b q.t1).set c q.t2).set d q.t3).set a q.t0 := by
  obtain ⟨⟨hab, hac, had⟩, ⟨hbc, hbd⟩, hcd⟩ :
      (a.val ≠ b.val ∧ a.val ≠ c.val ∧ a.val ≠ d.val) ∧ (b.val ≠ c.val ∧ b.val ≠ d.val) ∧ c.val ≠ d.val := by
    simpa [Fin.ext_iff] using h
  simp [quarterAt, quarter, *, Ne.symm]

/-- The column round runs the quarter-rounds of the round and leaves each result in place, where the round writes it
reflected in the diagonal of the matrix. -/
theorem columnRound_eq_transpose_salsaRound (x : Words16) : columnRound x = transpose (salsaRound x) := by
  simp (disch := decide) only [columnRound, quarterAt_eq]
  refine Vector.ext fun i hi => ?_
  interval_cases i <;> simp [salsaRound, transpose]

theorem salsaRound_eq_transpose_columnRound (x : Words16) : salsaRound x = transpose (columnRound x) := by
  rw [columnRound_eq_transpose_salsaRound, transpose_transpose]

/-- The row round is the round after a transposition: the rows become the columns that the round reads. -/
theorem rowRound_eq_salsaRound_transpose (x : Words16) : rowRound x = salsaRound (transpose x) := by
  simp (disch := decide) only [rowRound, quarterAt_eq]
  refine Vector.ext fun i hi => ?_
  interval_cases i <;> simp [salsaRound, transpose]

/-- The two transpositions between a column round and a row round are one and the same. -/
theorem salsaRound_salsaRound (x : Words16) : salsaRound (salsaRound x) = doubleRound x := by
  rw [doubleRound, rowRound_eq_salsaRound_transpose, ← salsaRound_eq_transpose_columnRound]

theorem doubleRounds_eq_rounds (k : Nat) (x : Words16) : doubleRounds k x = rounds (2 * k) x := by
  induction k with
  | zero => rfl
  | succ k ih => rw [doubleRounds, ih, ← salsaRound_salsaRound, Nat.mul_succ, rounds, rounds]

/-- Settles O28: the row round takes the transposition out again that the round has put in. -/
theorem roundsAreCanonicalDoubleRounds : Obligations.RoundsAreCanonicalDoubleRounds := by
  refine fun x => ⟨salsaRound_salsaRound x, (doubleRounds_eq_rounds 10 x).symm, fun i j => ?_⟩
  simp only [salsaRound_eq_transpose_columnRound, transpose_getElem]

end Sys2Proof.Machine
end

section
/-!
The two output modes of the core (40_salsa20_core.md rules R101, R106, R107) and the commands `SCINIT`, `SCPERM` and
`KSBLK` (rules R108 to R110): the words of a stored block, the blocks of a keystream, and what each command answers.
-/

namespace Sys2Proof.Machine

/-! ### The state build and the subkey mode -/

/-- Settles O24: the table of the state build, place by place. -/
theorem buildStateLayout : Obligations.BuildStateLayout := by
  intro blk key i
  fin_cases i <;> exact ⟨rfl, rfl, rfl, rfl⟩

/-- What the subkey mode subtracts from a feed-forward sum is what the built state has added there, so the other
summand is left (40_salsa20_core.md rule R107). -/
theorem feedForward_sub_buildState (blk : Bytes 16) (key : Bytes 32) (z : Words16) :
    let s := Vector.zipWith add32 z (buildState blk key)
    #v[sub32 s[0] (ld32 sigma 0), sub32 s[5] (ld32 sigma 4), sub32 s[10] (ld32 sigma 8), sub32 s[15] (ld32 sigma 12),
       sub32 s[6] (ld32 blk 0), sub32 s[7] (ld32 blk 4), sub32 s[8] (ld32 blk 8), sub32 s[9] (ld32 blk 12)]
      = #v[z[0], z[5], z[10], z[15], z[6], z[7], z[8], z[9]] := by
  simp only [buildState, Vector.getElem_zipWith]
  refine Vector.ext fun i hi => ?_
  interval_cases i <;> exact BitVec.add_sub_cancel _ _

/-- Settles O30: the words that are stored are those of the permuted state. -/
theorem subkeyHasNoFeedForward : Obligations.SubkeyHasNoFeedForward := fun blk key =>
  congrArg storeWords (feedForward_sub_buildState blk key (perm20 (buildState blk key)))

/-! ### The words of a stored block -/

/-- Bytes `[o, o+4)` of an array read back as the word they store (00_scope.md rules R12, R13). -/
theorem ld32_eq_of_take_drop {n : Nat} {a : Bytes n} {o : Nat} (h : o + 4 ≤ n) {w : Word}
    (hw : (a.toList.drop o).take 4 = (st32 w).toList) : ld32 a o h = w := by
  apply BitVec.eq_of_toNat_eq
  rw [toNat_ld32_eq_leInt, hw, st32_eq_leBytes, toList_leBytes, leInt_leDigits 4 _ w.isLt]

/-- In lists of `m` elements each, one after another, list `i` is the `m` elements from `m * i` on. -/
theorem take_drop_flatMap {α β : Type} {f : α → List β} {m : Nat} (hf : ∀ a, (f a).length = m) (l : List α) (i : Nat)
    (h : i < l.length) : ((l.flatMap f).drop (m * i)).take m = f l[i] := by
  induction l generalizing i with
  | nil => simp at h
  | cons a l ih =>
    rw [List.flatMap_cons]
    cases i with
    | zero => exact List.take_left' (hf a)
    | succ i =>
      have hdrop : m * (i + 1) = (f a).length + m * i := by rw [hf, Nat.mul_succ, Nat.add_comm]
      rw [hdrop, List.drop_length_add_append]
      exact ih i (by simpa using h)

/-- Word `i` of stored words, read back (40_salsa20_core.md rule R106). -/
theorem ld32_storeWords {n : Nat} (ws : Vector Word n) (i : Nat) (h : i < n) :
    ld32 (storeWords ws) (4 * i) (by omega) = ws[i] := by
  refine ld32_eq_of_take_drop _ ?_
  have hword := take_drop_flatMap (f := fun w => (st32 w).toList) (m := 4) (fun _ => Vector.length_toList) ws.toList i
    (by simpa using h)
  rwa [Vector.getElem_toList] at hword

/-- Word `i` of a keystream block is the feed-forward sum (40_salsa20_core.md rule R106). -/
theorem ld32_coreStream (blk : Bytes 16) (key : Bytes 32) (i : Nat) (h : i < 16) :
    ld32 (coreStream blk key) (4 * i) = (perm20 (buildState blk key))[i] + (buildState blk key)[i] := by
  calc ld32 (coreStream blk key) (4 * i)
      = (Vector.zipWith add32 (perm20 (buildState blk key)) (buildState blk key))[i] := ld32_storeWords _ i h
    _ = (perm20 (buildState blk key))[i] + (buildState blk key)[i] := Vector.getElem_zipWith _

/-! ### The blocks of a stream (41_salsa20_stream.md rule R131) -/

theorem streamBlocks_eq_flatMap (sn : Bytes 8) (key : Bytes 32) (ctr count : Nat) :
    streamBlocks sn key ctr count =
      (List.range' ctr count).flatMap fun c => (coreStream (streamBlock sn c) key).toList := by
  induction count generalizing ctr with
  | zero => rfl
  | succ count ih => rw [streamBlocks, ih, List.range'_succ, List.flatMap_cons]

/-- A block that lies within the keystream is the core block with its counter. -/
theorem take_drop_keystream (sn : Bytes 8) (key : Bytes 32) {n : Word} {k : Nat} (h : 64 * (k + 1) ≤ n.toNat) :
    ((keystream sn key n).drop (64 * k)).take 64 = (coreStream (streamBlock sn k) key).toList := by
  have hcount : k < (List.range' 0 (blockCount n.toNat)).length := by
    rw [List.length_range', blockCount]
    omega
  rw [keystream, List.drop_take, List.take_take, Nat.min_eq_left (by omega), streamBlocks_eq_flatMap,
    take_drop_flatMap (fun _ => Vector.length_toList) _ k hcount]
  simp

/-! ### The commands of the core (40_salsa20_core.md rules R108 to R110) -/

theorem exec_scinit (ks : Bool) (s : State) :
    exec (.scinit ks) s = .next ((s.setX (buildState s.blk (s.selectedKey ks))).finish 0x01 .ok) :=
  exec_eq_complete (.scinit ks) s

theorem exec_scperm (s : State) : exec .scperm s = .next ((s.setX (perm20 s.x)).finish 0x02 .ok) :=
  exec_eq_complete .scperm s

theorem exec_ksblk (ks : Bool) (s : State) :
    exec (.ksblk ks) s = .next ((s.setOb (coreStream s.blk (s.selectedKey ks))).finish 0x03 .ok) :=
  exec_eq_complete (.ksblk ks) s

/-- Settles O12: the word is the command's, and its body writes the built state to `X`. -/
theorem scinitResult : Obligations.ScinitResult := fun ks s =>
  ⟨(decodeEncodeExact _ _).mpr (by cases ks <;> rfl), exec_scinit ks s⟩

/-- Settles O13: the word is the command's, and its body permutes `X`. -/
theorem scpermResult : Obligations.ScpermResult := fun s => ⟨(decodeEncodeExact _ _).mpr rfl, exec_scperm s⟩

/-- Settles O14: the word is the command's, and its body writes the block to `OB`. -/
theorem ksblkResult : Obligations.KsblkResult := fun ks s =>
  ⟨(decodeEncodeExact _ _).mpr (by cases ks <;> rfl), exec_ksblk ks s⟩

/-- Settles O29: the state that `SCINIT` builds and the one that `SCPERM` makes of it are the two summands of the
block. -/
theorem ksblkIsFeedForwardOfScperm : Obligations.KsblkIsFeedForwardOfScperm := by
  intro ks s y z u hy hz hu i
  cases (exec_scinit ks s).symm.trans hy
  cases (exec_scperm _).symm.trans hz
  cases (exec_ksblk ks s).symm.trans hu
  exact ld32_coreStream _ _ i.val i.isLt

/-- Settles O35: `OB` takes the core block of `BLK`, and `BLK` is the stream's input block with counter `k`. -/
theorem ksblkGivesStreamBlock : Obligations.KsblkGivesStreamBlock := by
  intro ks s u sn k n hblk hn hu
  cases (exec_ksblk ks s).symm.trans hu
  rw [take_drop_keystream sn _ hn, finish_ob, setOb_ob, hblk]
  rfl

end Sys2Proof.Machine
end

section
/-!
The Salsa20 stream (41_salsa20_stream.md): where the bytes of a keystream come from (rules R130, R131, R133), the
algebra of the stream XOR (rule R134), and the commands `SXOR` and `XSXOR` (rule R136, 42_xsalsa20.md rule R153), each
as its checks followed by one write to the output view.
-/

namespace Sys2Proof.Machine

/-! ### The bytes of a keystream (41_salsa20_stream.md rule R131) -/

/-- Byte `i` of blocks one after another is byte `i mod 64` of the block `floor(i / 64)` places on. -/
theorem streamBlocks_getElem? (sn : Bytes 8) (key : Bytes 32) (ctr : Nat) {count i : Nat} (h : i < 64 * count) :
    (streamBlocks sn key ctr count)[i]? =
      some ((coreStream (streamBlock sn (ctr + i / 64)) key)[i % 64]'(by omega)) := by
  induction count generalizing ctr i with
  | zero => omega
  | succ count ih =>
    rw [streamBlocks]
    by_cases hi : i < 64
    · rw [List.getElem?_append_left (by simpa using hi)]
      simp [Nat.div_eq_of_lt hi, Nat.mod_eq_of_lt hi, hi]
    · obtain ⟨j, rfl⟩ := Nat.exists_eq_add_of_le (Nat.le_of_not_lt hi)
      rw [List.getElem?_append_right (by simp)]
      simp [ih (ctr + 1) (i := j) (by omega), Nat.add_assoc, Nat.add_comm 1]

/-- Settles O32: the keystream is a front part of the blocks with counters from 0 on, and long enough. -/
theorem keystreamBytesComeFromBlocks : Obligations.KeystreamBytesComeFromBlocks := by
  refine fun sn key n => ⟨keystream_length sn key n, fun i hi => ?_⟩
  have hblocks : i < 64 * blockCount n.toNat := by
    rw [blockCount]
    omega
  rw [keystream, List.getElem?_take_of_lt hi, streamBlocks_getElem? sn key 0 hblocks]
  simp only [Nat.zero_add, streamBlock]

/-! ### The block counter (41_salsa20_stream.md rules R130, R133) -/

/-- The digits of `v` from place `k` on are those of `v / 256^k`. -/
theorem drop_leDigits (k n v : Nat) : (leDigits (n + k) v).drop k = leDigits n (v / 256 ^ k) := by
  induction k generalizing v with
  | zero => simp
  | succ k ih =>
    rw [← Nat.add_assoc, leDigits, List.drop_succ_cons, ih, Nat.div_div_eq_div_mul, pow_succ']

/-- The input block of the core ends with the eight digits of the counter. -/
theorem drop_streamBlock (sn : Bytes 8) (ctr : Nat) : (streamBlock sn ctr).toList.drop 8 = leDigits 8 ctr := by
  rw [streamBlock, Vector.toList_append, toList_leBytes, List.drop_left' Vector.length_toList]

/-- A 32-bit length takes at most 2^26 blocks of 64 bytes. -/
theorem blockCount_le (n : Word) : blockCount n.toNat ≤ 2 ^ 26 := by
  have hn := n.isLt
  rw [blockCount]
  omega

/-- Settles O33: a counter below 2^26 fits in the low four of its eight digits. -/
theorem blockCounterNeverWraps : Obligations.BlockCounterNeverWraps := by
  refine fun n sn ctr => ⟨blockCount_le n, fun hctr => ?_⟩
  have hsmall : ctr < 2 ^ 26 := hctr.trans_le (blockCount_le n)
  constructor
  · rw [drop_streamBlock, leInt_leDigits 8 ctr (by omega)]
  · calc (streamBlock sn ctr).toList.drop 12
        = ((streamBlock sn ctr).toList.drop 8).drop 4 := by rw [List.drop_drop]
      _ = leDigits 4 (ctr / 256 ^ 4) := by rw [drop_streamBlock, drop_leDigits 4 4]
      _ = [0, 0, 0, 0] := by rw [Nat.div_eq_of_lt (by omega)]; rfl

/-! ### The stream XOR (41_salsa20_stream.md rules R132, R134) -/

theorem streamXor_streamXor {m : List Byte} {n : Word} (hm : m.length = n.toNat) (sn : Bytes 8) (key : Bytes 32) :
    streamXor (some (streamXor (some m) n sn key)) n sn key = m :=
  xorBytes_twice m _ (by rw [hm, keystream_length])

/-- Zeros are neutral for the byte-wise exclusive or. -/
theorem xorBytes_zeros (k : List Byte) : xorBytes (List.replicate k.length 0) k = k := by
  apply List.ext_getElem
  · simp
  · intro i _ _
    simp [xorBytes_getElem]

/-- The first bytes of a keystream are the shorter keystream: which block a byte comes from does not depend on the
length. -/
theorem take_keystream (sn : Bytes 8) (key : Bytes 32) {n n' : Word} (h : n.toNat ≤ n'.toNat) :
    (keystream sn key n').take n.toNat = keystream sn key n := by
  obtain ⟨hlen, hbyte⟩ := keystreamBytesComeFromBlocks sn key n
  obtain ⟨-, hbyte'⟩ := keystreamBytesComeFromBlocks sn key n'
  refine List.ext_getElem? fun i => ?_
  by_cases hi : i < n.toNat
  · rw [List.getElem?_take_of_lt hi, hbyte' i (by omega), hbyte i hi]
  · rw [List.getElem?_take_eq_none (by omega), List.getElem?_eq_none (by omega)]

/-- Settles O34: each property is a lemma above; an absent input is the keystream by definition. -/
theorem streamXorProperties : Obligations.StreamXorProperties := by
  refine fun sn key n => ⟨fun m hm => streamXor_streamXor hm sn key, ?_, rfl, fun n' h => ?_⟩
  · have hzeros := xorBytes_zeros (keystream sn key n)
    rwa [keystream_length] at hzeros
  · rw [← take_keystream sn key h]
    exact List.take_prefix _ _

/-! ### The stream commands as their checks and one write -/

/-- The output view takes the stream XOR of the command's input under the given key, with the stream nonce
`NONCE[16..24)` (41_salsa20_stream.md rule R136). -/
def State.writeStream (s : State) (ni : Bool) (key : Bytes 32) : State :=
  s.writeOutput (streamXor (s.streamInput ni) s.len (streamNonce s.nonce) key)

theorem commandBody_sxor (ks ni : Bool) (s : State) :
    commandBody (.sxor ks ni) s = s.streamChecks ni >>= fun _ => .ok (s.writeStream ni (s.selectedKey ks)) := rfl

theorem commandBody_xsxor (ni : Bool) (s : State) :
    commandBody (.xsxor ni) s = s.streamChecks ni >>= fun _ => .ok (s.writeStream ni (deriveSubkey s.nonce s.key)) :=
  rfl

/-! ### The checks, in the terms of the statements (20_memory.md rules R55, R56) -/

section
variable {i : Instr} {ni : Bool} {s : State}

/-- A view of a stream command does not fit exactly when one of its range checks fails. -/
theorem viewOutOfRange_iff (hreads : readsView i = !ni) (hwrites : writesView i = true) :
    viewOutOfRange i s ↔ (!ni && !s.inputFits) = true ∨ (!s.outputFits) = true := by
  simp [viewOutOfRange, hreads, hwrites, State.inputFits, State.outputFits, dmSpanOk_eq_false_iff]

/-- The views of a stream command overlap partly exactly when its overlap check fails. -/
theorem viewsOverlapPartly_iff : ni = false ∧ viewsOverlapPartly s ↔ (!ni && s.viewsClash) = true := by
  simp [viewsOverlapPartly, viewsClash_iff]

theorem streamChecks_of_outOfRange (hreads : readsView i = !ni) (hwrites : writesView i = true)
    (hrange : viewOutOfRange i s) : s.streamChecks ni = .error .eRange := by
  rw [streamChecks_eq]
  obtain hin | hout := (viewOutOfRange_iff hreads hwrites).mp hrange
  · rw [if_pos hin]
  · rw [if_pos hout, ite_self]

theorem streamChecks_of_inRange (hreads : readsView i = !ni) (hwrites : writesView i = true)
    (hrange : ¬viewOutOfRange i s) :
    s.streamChecks ni = if !ni && s.viewsClash then .error .eOvlp else .ok () := by
  obtain ⟨hin, hout⟩ := not_or.mp (hrange ∘ (viewOutOfRange_iff hreads hwrites).mpr)
  rw [streamChecks_eq, if_neg hin, if_neg hout]

end

/-- The checks look at where the views lie and at the size of `DM`, not at its bytes. -/
theorem streamChecks_congr_of_views {s t : State} (hsrc : s.src = t.src) (hdst : s.dst = t.dst) (hlen : s.len = t.len)
    (hsize : s.dm.size = t.dm.size) (ni : Bool) : s.streamChecks ni = t.streamChecks ni := by
  rw [streamChecks_eq, streamChecks_eq, inputFits_congr hsrc hlen hsize, outputFits_congr hdst hlen hsize,
    viewsClash_congr hsrc hdst hlen]

/-! ### `SXOR` (41_salsa20_stream.md rule R136) -/

theorem exec_sxor (ks ni : Bool) (s : State) :
    exec (.sxor ks ni) s =
      complete 0x05 s (s.streamChecks ni >>= fun _ => .ok (s.writeStream ni (s.selectedKey ks))) :=
  exec_eq_complete (.sxor ks ni) s

/-- Settles O16: the word is the command's, and each clause decides what the checks answer. -/
theorem sxorResult : Obligations.SxorResult := by
  refine fun ks ni s => ⟨(decodeEncodeExact _ _).mpr (by cases ks <;> cases ni <;> rfl),
    fun hrange => ?_, fun hrange hclash => ?_, fun hrange hclash => ?_⟩
  · rw [exec_sxor, streamChecks_of_outOfRange rfl rfl hrange]
    rfl
  · rw [exec_sxor, streamChecks_of_inRange rfl rfl hrange, if_pos (viewsOverlapPartly_iff.mp hclash)]
    rfl
  · rw [exec_sxor, streamChecks_of_inRange rfl rfl hrange, if_neg (hclash ∘ viewsOverlapPartly_iff.mpr)]
    rfl

/-! ### The same stream command twice in place -/

/-- Writing back the bytes that were read undoes a write of as many bytes there. -/
theorem readByte_writeBytes_restore (m : Memory) (addr : Nat) (bs : List Byte) (a : Nat) :
    ((m.writeBytes addr bs).writeBytes addr (m.readBytes addr bs.length)).readByte a = m.readByte a := by
  by_cases ha : addr ≤ a ∧ a < addr + bs.length
  · obtain ⟨k, rfl⟩ := Nat.exists_eq_add_of_le ha.1
    have hk : k < (m.readBytes addr bs.length).length := by
      rw [readBytes_length]
      omega
    rw [readByte_writeBytes_inside _ _ _ _ hk, readBytes_getElem]
  · have hout : a < addr ∨ addr + bs.length ≤ a := by omega
    rw [readByte_writeBytes_outside _ _ _ _ (by rwa [readBytes_length]), readByte_writeBytes_outside _ _ _ _ hout]

/-- In place, the output just written is the next input view. -/
theorem inputView_writeStream {s : State} (hplace : s.src = s.dst) (ni : Bool) (key : Bytes 32) :
    (s.writeStream ni key).inputView = streamXor (s.streamInput ni) s.len (streamNonce s.nonce) key := by
  have hlen := streamXor_length _ s.len (streamNonce s.nonce) key (streamInput_length s ni)
  change (s.dm.writeBytes s.dst.toNat _).readBytes s.src.toNat s.len.toNat = _
  rw [hplace, ← hlen]
  exact readBytes_writeBytes_same _ _ _

/-- In place, a second stream XOR under the same key writes the old input view back, because the stream XOR inverts
itself (rule R134). -/
theorem readByte_writeStream_writeStream {s : State} (hplace : s.src = s.dst) (key : Bytes 32) (a : Nat) :
    ((s.writeStream false key).writeStream false key).dm.readByte a = s.dm.readByte a := by
  have hlen := streamXor_length _ s.len (streamNonce s.nonce) key (streamInput_length s false)
  have hsecond : streamXor (some (s.writeStream false key).inputView) s.len (streamNonce s.nonce) key
      = s.dm.readBytes s.dst.toNat s.len.toNat := by
    rw [inputView_writeStream hplace]
    exact (streamXor_streamXor (inputView_length s) _ _).trans (by rw [State.inputView, hplace])
  have hdm : ((s.writeStream false key).writeStream false key).dm =
      (s.dm.writeBytes s.dst.toNat (streamXor (s.streamInput false) s.len (streamNonce s.nonce) key)).writeBytes
        s.dst.toNat (streamXor (some (s.writeStream false key).inputView) s.len (streamNonce s.nonce) key) := rfl
  rw [hdm, hsecond, ← hlen]
  exact readByte_writeBytes_restore _ _ _ a

/-- The checks of a stream command answer the same again after it. -/
theorem streamChecks_after_writeStream (s : State) (ni : Bool) (key : Bytes 32) (op : Byte) (code : Code) :
    ((s.writeStream ni key).finish op code).streamChecks ni = s.streamChecks ni :=
  streamChecks_congr_of_views (s := (s.writeStream ni key).finish op code) (t := s) rfl rfl rfl (writeBytes_size ..) ni

/-- A command that, after the checks, writes the stream XOR of its input under a key that neither its write nor
completion changes, twice in place: the second run passes the same checks and restores `DM`. -/
theorem exec_stream_twice {i : Instr} {key : State → Bytes 32}
    (hbody : ∀ r, commandBody i r = r.streamChecks false >>= fun _ => .ok (r.writeStream false (key r)))
    (hkey : ∀ r k op code, key ((r.writeStream false k).finish op code) = key r) {s t u : State}
    (hplace : s.src = s.dst) (ht : exec i s = .next t) (hok : statusCode t.status = Code.ok.bits)
    (hu : exec i t = .next u) :
    statusCode u.status = Code.ok.bits ∧ ∀ a : Nat, u.dm.readByte a = s.dm.readByte a := by
  obtain ⟨v, hv, rfl⟩ := commandBody_of_exec_ok ht hok
  obtain ⟨_, hchecks, hwrite⟩ := bind_eq_ok ((hbody s).symm.trans hv)
  cases hwrite
  rw [exec_eq_complete, hbody, streamChecks_after_writeStream, hchecks, ok_bind, complete_ok, hkey] at hu
  cases hu
  exact ⟨completedStatus_code .., readByte_writeStream_writeStream hplace (key s)⟩

/-- Settles O37: both commands write a stream XOR, each under a key that no write of `DM` or `STATUS` touches. -/
theorem streamTwiceInPlaceRestores : Obligations.StreamTwiceInPlaceRestores := by
  rintro i s t u (⟨ks, rfl⟩ | rfl) hplace ht hok hu
  · exact exec_stream_twice (key := fun r => r.selectedKey ks) (commandBody_sxor ks false) (fun _ _ _ _ => rfl)
      hplace ht hok hu
  · exact exec_stream_twice (key := fun r => deriveSubkey r.nonce r.key) (commandBody_xsxor false)
      (fun _ _ _ _ => rfl) hplace ht hok hu

end Sys2Proof.Machine
end

section
/-!
XSalsa20 (42_xsalsa20.md): the commands `XSUBKEY` (rule R152) and `XSXOR` (rule R153), the relation of the subkey to the
permuted state, and the equivalence of `XSXOR` with `XSUBKEY` followed by `SXOR.KS` (rule R154).
-/

namespace Sys2Proof.Machine

/-! ### `XSUBKEY` (42_xsalsa20.md rule R152) -/

theorem exec_xsubkey (s : State) :
    exec .xsubkey s = .next ((s.setSubkey (deriveSubkey s.nonce s.key)).finish 0x04 .ok) :=
  exec_eq_complete .xsubkey s

/-- Settles O15: the word is the command's, and its body writes the subkey to `SUBKEY`. -/
theorem xsubkeyResult : Obligations.XsubkeyResult := fun s => ⟨(decodeEncodeExact _ _).mpr rfl, exec_xsubkey s⟩

/-- Settles O31: `SCINIT` builds the state from the same input block and key as the subkey mode, and the subkey is words
of the permuted state alone (40_salsa20_core.md rule R107). -/
theorem xsubkeyFromPermutation : Obligations.XsubkeyFromPermutation := by
  intro s y z u hblk hy hz hu
  cases (exec_scinit false s).symm.trans hy
  cases (exec_scperm _).symm.trans hz
  cases (exec_xsubkey s).symm.trans hu
  have hinput : s.blk = slice s.nonce 0 16 := by simpa [← Vector.toList_inj] using hblk
  have hsubkey : deriveSubkey s.nonce s.key = coreSubkey s.blk s.key := by rw [hinput, deriveSubkey]
  exact hsubkey.trans (subkeyHasNoFeedForward s.blk s.key)

/-! ### The outcomes of a stream command, clause by clause -/

section
variable {i : Instr} {ni : Bool} {s : State} {key : Bytes 32}

variable (hbody : commandBody i s = s.streamChecks ni >>= fun _ => .ok (s.writeStream ni key))
  (hreads : readsView i = !ni) (hwrites : writesView i = true)
include hbody hreads hwrites

theorem exec_stream_of_outOfRange (hrange : viewOutOfRange i s) : exec i s = .next (s.finish i.opcode .eRange) := by
  rw [exec_eq_complete, hbody, streamChecks_of_outOfRange hreads hwrites hrange, error_bind, complete_error]

theorem exec_stream_of_overlap (hrange : ¬viewOutOfRange i s) (hclash : ni = false ∧ viewsOverlapPartly s) :
    exec i s = .next (s.finish i.opcode .eOvlp) := by
  rw [exec_eq_complete, hbody, streamChecks_of_inRange hreads hwrites hrange, if_pos (viewsOverlapPartly_iff.mp hclash),
    error_bind, complete_error]

theorem exec_stream_of_passed (hrange : ¬viewOutOfRange i s) (hclash : ¬(ni = false ∧ viewsOverlapPartly s)) :
    exec i s = .next ((s.writeStream ni key).finish i.opcode .ok) := by
  rw [exec_eq_complete, hbody, streamChecks_of_inRange hreads hwrites hrange,
    if_neg (hclash ∘ viewsOverlapPartly_iff.mpr), ok_bind, complete_ok]

end

/-! ### `XSXOR` (42_xsalsa20.md rule R153) -/

/-- Settles O17: the word is the command's, and `XSXOR` is a stream command under the derived subkey. -/
theorem xsxorResult : Obligations.XsxorResult := fun ni s =>
  ⟨(decodeEncodeExact _ _).mpr (by cases ni <;> rfl), exec_stream_of_outOfRange (commandBody_xsxor ni s) rfl rfl,
    exec_stream_of_overlap (commandBody_xsxor ni s) rfl rfl, exec_stream_of_passed (commandBody_xsxor ni s) rfl rfl⟩

/-! ### `XSUBKEY` then `SXOR.KS` (42_xsalsa20.md rule R154) -/

/-- After `XSUBKEY`, `SXOR.KS` passes or fails the checks that `XSXOR` does without it, and what it leaves differs by
what `XSUBKEY` has written. -/
theorem commandBody_sxor_after_xsubkey (ni : Bool) (s : State) :
    commandBody (.sxor true ni) ((s.setSubkey (deriveSubkey s.nonce s.key)).finish 0x04 .ok) =
      commandBody (.xsxor ni) s >>= fun w => .ok ((w.setSubkey (deriveSubkey s.nonce s.key)).finish 0x04 .ok) := by
  have hchecks : ((s.setSubkey (deriveSubkey s.nonce s.key)).finish 0x04 .ok).streamChecks ni = s.streamChecks ni :=
    streamChecks_congr_of_views rfl rfl rfl rfl ni
  rw [commandBody_sxor, commandBody_xsxor, hchecks]
  cases s.streamChecks ni <;> rfl

/-- Both ways complete with one code, from states `w` that differ by what `XSUBKEY` has written: the state that the
stream XOR leaves, or, when a check fails, the state before. -/
theorem exec_sxor_after_xsubkey (ni : Bool) (s : State) :
    ∃ (w : State) (c : Code),
      exec (.sxor true ni) ((s.setSubkey (deriveSubkey s.nonce s.key)).finish 0x04 .ok)
          = .next (((w.setSubkey (deriveSubkey s.nonce s.key)).finish 0x04 .ok).finish 0x05 c)
        ∧ exec (.xsxor ni) s = .next (w.finish 0x06 c) := by
  rw [exec_eq_complete, exec_eq_complete, commandBody_sxor_after_xsubkey]
  cases commandBody (.xsxor ni) s with
  | ok w => exact ⟨w, .ok, rfl, rfl⟩
  | error c => exact ⟨s, c, rfl, rfl⟩

/-- Settles O38: the completion of `XSUBKEY` itself, with `OK`, leaves the sticky `ERRS` as it was. -/
theorem xsubkeySxorEqualsXsxor : Obligations.XsubkeySxorEqualsXsxor := by
  intro ni s t u v ht hu hv
  cases (exec_xsubkey s).symm.trans ht
  obtain ⟨w, c, hsxor, hxsxor⟩ := exec_sxor_after_xsubkey ni s
  cases hsxor.symm.trans hu
  cases hxsxor.symm.trans hv
  exact ⟨rfl, by simp, by simp, by simp, by simp, by simp⟩

end Sys2Proof.Machine
end

section
/-!
Poly1305 over the integers (43_poly1305.md): the clamp (rule R172), the value of a chunk (rule R173), the tag as the
unrolled polynomial (rules R174 to R176), the compare (rule R179), and the commands `PCLAMP`, `PMAC`, `TVFY`
(rules R180 to R182).
-/

namespace Sys2Proof.Machine

/-! ### Digits -/

/-- The digits asked for depend on the number modulo their power only. -/
theorem leDigits_mod {n m : Nat} (h : n ≤ m) (v : Nat) : leDigits n (v % 256 ^ m) = leDigits n v := by
  induction n generalizing m v with
  | zero => rfl
  | succ n ih =>
    obtain ⟨m, rfl⟩ : ∃ k, m = k + 1 := ⟨m - 1, by omega⟩
    have hlow : v % 256 ^ (m + 1) % 256 = v % 256 := Nat.mod_mod_of_dvd v ⟨256 ^ m, by ring⟩
    have hhigh : v % 256 ^ (m + 1) / 256 = v / 256 % 256 ^ m := by
      rw [pow_succ', Nat.mod_mul_right_div_self]
    rw [leDigits, leDigits, hhigh, ih (by omega)]
    congr 1
    exact BitVec.eq_of_toNat_eq (by simp [hlow])

theorem leBytes_mod {n m : Nat} (h : n ≤ m) (v : Nat) : leBytes n (v % 256 ^ m) = leBytes n v := by
  apply Vector.toList_inj.mp
  rw [toList_leBytes, toList_leBytes, leDigits_mod h]

/-- The first bytes of a list are the low digits of its `le_int`. -/
theorem leDigits_leInt_take {n : Nat} {l : List Byte} (h : n ≤ l.length) : leDigits n (leInt l) = l.take n := by
  induction l generalizing n with
  | nil => simp_all [leDigits]
  | cons b bs ih =>
    cases n with
    | zero => rfl
    | succ n =>
      have hb := b.isLt
      have hlow : BitVec.ofNat 8 (b.toNat + 256 * leInt bs) = b :=
        BitVec.eq_of_toNat_eq (by rw [BitVec.toNat_ofNat]; omega)
      rw [leInt, leDigits, hlow, show (b.toNat + 256 * leInt bs) / 256 = leInt bs by omega, ih (by simpa using h),
        List.take_succ_cons]

/-- `le_bytes` undoes `le_int` on an array (00_scope.md rule R14). -/
@[simp] theorem leBytes_leInt {n : Nat} (a : Bytes n) : leBytes n (leInt a.toList) = a := by
  apply Vector.toList_inj.mp
  rw [toList_leBytes, leDigits_leInt_take (by simp), List.take_of_length_le (by simp)]

/-- `le_int` of sixteen bytes is below `2^128`. -/
theorem leInt_toList_lt (a : Bytes 16) : leInt a.toList < 2 ^ 128 := by
  simpa using leInt_lt a.toList

/-- `le_int` takes a bytewise AND to the AND of the integers. -/
theorem leInt_zipWith_and (a b : List Byte) : leInt (List.zipWith (· &&& ·) a b) = leInt a &&& leInt b := by
  induction a generalizing b with
  | nil => simp [leInt]
  | cons x xs ih =>
    cases b with
    | nil => simp [leInt]
    | cons y ys =>
      have hx := x.isLt
      have hy := y.isLt
      have hdiv : (leInt (x :: xs) &&& leInt (y :: ys)) / 2 ^ 8 = leInt xs &&& leInt ys := by
        rw [Nat.and_div_two_pow]
        congr 1 <;> (simp only [leInt]; omega)
      have hmod : (leInt (x :: xs) &&& leInt (y :: ys)) % 2 ^ 8 = x.toNat &&& y.toNat := by
        rw [Nat.and_mod_two_pow]
        congr 1 <;> (simp only [leInt]; omega)
      rw [List.zipWith_cons_cons, leInt, ih, BitVec.toNat_and, ← hdiv, ← hmod]
      omega

/-! ### The clamp (43_poly1305.md rule R172) -/

/-- The bytes that the clamp masks with. -/
def clampMask : Bytes 16 :=
  #v[0xff, 0xff, 0xff, 0x0f, 0xfc, 0xff, 0xff, 0x0f, 0xfc, 0xff, 0xff, 0x0f, 0xfc, 0xff, 0xff, 0x0f]

theorem leInt_clampMask : leInt clampMask.toList = 0x0ffffffc0ffffffc0ffffffc0fffffff := by decide

theorem clampMask_getElem (i : Fin 16) :
    clampMask[i] = if i.val ∈ [3, 7, 11, 15] then 0x0f else if i.val ∈ [4, 8, 12] then 0xfc else 0xff := by
  revert i
  decide

/-- The clamp is the bytewise AND with its mask. -/
theorem clamp_eq_zipWith (rb : Bytes 16) : clamp rb = Vector.zipWith (· &&& ·) rb clampMask := by
  have hkeep (b : Byte) : b &&& 255#8 = b := BitVec.and_allOnes
  ext1 i hi
  interval_cases i <;> simp [clamp, clampMask, hkeep]

/-- The clamp as an integer mask. -/
theorem leInt_clamp (rb : Bytes 16) :
    leInt (clamp rb).toList = leInt rb.toList &&& 0x0ffffffc0ffffffc0ffffffc0fffffff := by
  rw [clamp_eq_zipWith, Vector.toList_zipWith, leInt_zipWith_and, leInt_clampMask]

/-- Settles O39: each part is the bytewise AND with the mask, as bytes or as an integer. -/
theorem clampRule : Obligations.ClampRule := fun rb =>
  ⟨fun i => by rw [← clampMask_getElem, clamp_eq_zipWith]; simp, leInt_clamp rb,
    calc leInt (clamp rb).toList
        ≤ 0x0ffffffc0ffffffc0ffffffc0fffffff := (leInt_clamp rb).trans_le Nat.and_le_right
      _ < 2 ^ 124 := by decide,
    clamp_clamp rb⟩

/-! ### The value of a chunk (43_poly1305.md rule R173) -/

theorem chunkValue_eq (chunk : List Byte) : chunkValue chunk = leInt chunk + 256 ^ chunk.length := by
  rw [chunkValue, pow_mul]
  rfl

/-- Settles O40: the byte 0x01 alone gives `256^L ≤ c`, and the bytes below it keep `c` under `2 · 256^L`. -/
theorem chunkValueBounds : Obligations.ChunkValueBounds := by
  intro chunk hpos hle
  have hvalue := chunkValue_eq chunk
  have hbytes := leInt_lt chunk
  have hlow : 256 ^ 1 ≤ 256 ^ chunk.length := Nat.pow_le_pow_right (by decide) hpos
  have hhigh : 256 ^ chunk.length ≤ 256 ^ 16 := Nat.pow_le_pow_right (by decide) hle
  refine ⟨by omega, by omega, fun hfull => ?_, fun hfull => by rw [hvalue, hfull]; omega⟩
  by_contra hne
  have hshort : 256 ^ chunk.length ≤ 256 ^ 15 := Nat.pow_le_pow_right (by decide) (by omega)
  omega

/-! ### The tag (43_poly1305.md rules R174 to R176) -/

/-- An accumulator that starts reduced stays reduced. -/
theorem accumulate_lt (r q : Nat) {h : Nat} (msg : List Byte) (hh : h < p1305) : accumulate r q h msg < p1305 := by
  induction q generalizing h msg with
  | zero => exact hh
  | succ q ih => exact ih _ (Nat.mod_lt _ (by decide))

/-- The accumulator, unrolled: Horner's rule in the residues modulo `P1305`. -/
theorem accumulate_eq_polynomial (r q h : Nat) (msg : List Byte) :
    (accumulate r q h msg : ZMod p1305)
      = h * r ^ q + ∑ k ∈ Finset.range q, (chunkValue ((msg.drop (16 * k)).take 16) : ZMod p1305) * r ^ (q - k) := by
  induction q generalizing h msg with
  | zero => simp [accumulate]
  | succ q ih =>
    have hdrop (k : Nat) : (msg.drop 16).drop (16 * k) = msg.drop (16 * (k + 1)) := by
      rw [List.drop_drop, Nat.mul_succ, Nat.add_comm]
    simp only [accumulate, ih, hdrop, ZMod.natCast_mod, Finset.sum_range_succ', Nat.add_sub_add_right, Nat.mul_zero,
      List.drop_zero, Nat.sub_zero]
    push_cast
    ring

/-- `le_int` of the tag: accumulator plus mask, modulo `2^128`. -/
theorem leInt_poly1305 (msg : List Byte) (pk : Bytes 32) :
    leInt (poly1305 msg pk).toList =
      (accumulate (leInt (clamp (keyHalfR pk)).toList) (chunkCount msg.length) 0 msg + leInt (keyHalfS pk).toList)
        % 2 ^ 128 := by
  rw [poly1305, toList_leBytes]
  exact leInt_leDigits 16 _ (Nat.mod_lt _ (by decide))

/-- Settles O41: the accumulator is reduced, and it is the polynomial's residue. -/
theorem polyTagIsPolynomial : Obligations.PolyTagIsPolynomial := by
  intro msg pk q r s c
  have hacc : accumulate r q 0 msg = (∑ k ∈ Finset.range q, c k * r ^ (q - k)) % p1305 := by
    rw [← Nat.mod_eq_of_lt (accumulate_lt r q msg (show 0 < p1305 by decide))]
    apply (ZMod.natCast_eq_natCast_iff' _ _ _).mp
    rw [accumulate_eq_polynomial]
    push_cast [c, chunkValue]
    ring
  exact (leInt_poly1305 msg pk).trans (congrArg (fun h => (h + s) % 2 ^ 128) hacc)

/-- A zero multiplier keeps the accumulator at zero. -/
theorem accumulate_zero (q : Nat) (msg : List Byte) : accumulate 0 q 0 msg = 0 := by
  induction q generalizing msg with
  | zero => rfl
  | succ q ih => rw [accumulate, Nat.mul_zero, Nat.zero_mod, ih]

/-- Settles O42: in both cases the accumulator ends at zero. -/
theorem polyTagIsMaskWhenEmptyOrZero : Obligations.PolyTagIsMaskWhenEmptyOrZero := by
  intro msg pk h
  have hacc : accumulate (leInt (clamp (keyHalfR pk)).toList) (chunkCount msg.length) 0 msg = 0 := by
    rcases h with rfl | hr
    · rfl
    · rw [keyHalfR, hr, accumulate_zero]
  simp only [poly1305, hacc, Nat.zero_add, Nat.mod_eq_of_lt (leInt_toList_lt _), leBytes_leInt]
  rfl

/-! ### The compare (43_poly1305.md rule R179) -/

/-- An OR over a list is zero exactly when everything in it is. -/
theorem foldl_or_eq_zero_iff (l : List Byte) (d : Byte) : l.foldl (· ||| ·) d = 0 ↔ d = 0 ∧ ∀ b ∈ l, b = 0 := by
  induction l generalizing d with
  | nil => simp
  | cons b bs ih =>
    have hor : d ||| b = 0 ↔ d = 0 ∧ b = 0 := BitVec.or_eq_zero_iff
    rw [List.foldl_cons, ih, hor, List.forall_mem_cons, and_assoc]

/-- Byte differences are all zero exactly for equal arrays. -/
theorem xorBytes_eq_zero_iff {n : Nat} (a b : Bytes n) : (∀ d ∈ xorBytes a.toList b.toList, d = 0) ↔ a = b := by
  simp [List.forall_mem_iff_forall_getElem, xorBytes_getElem, Vector.ext_iff]

theorem verify16_iff (a b : Bytes 16) : verify16 a b = true ↔ a = b := by
  rw [verify16, beq_iff_eq, foldl_or_eq_zero_iff, xorBytes_eq_zero_iff]
  simp

/-- Settles O44: the OR over the differences is zero exactly when each difference is. -/
theorem verify16IsEquality : Obligations.Verify16IsEquality := verify16_iff

/-! ### The commands (43_poly1305.md rules R180 to R182) -/

theorem exec_pclamp (s : State) :
    exec .pclamp s = .next ((s.setMacKey (clamp (keyHalfR s.pk)) (keyHalfS s.pk)).finish 0x07 .ok) :=
  exec_eq_complete .pclamp s

/-- Settles O18: the word is the command's, and its body writes both halves. -/
theorem pclampResult : Obligations.PclampResult := fun s => ⟨(decodeEncodeExact _ _).mpr rfl, exec_pclamp s⟩

theorem exec_pmac_of_outOfRange {s : State} (h : s.dm.size < s.src.toNat + s.len.toNat) :
    exec .pmac s = .next (s.finish 0x08 .eRange) := by
  have hfits : s.inputFits = false := (dmSpanOk_eq_false_iff _ _ _).mpr h
  rw [exec_eq_complete, commandBody, hfits]
  rfl

theorem exec_pmac_of_inRange {s : State} (h : s.src.toNat + s.len.toNat ≤ s.dm.size) :
    exec .pmac s = .next
      (((s.setMacKey (clamp (keyHalfR s.pk)) (keyHalfS s.pk)).setTag (poly1305 s.inputView s.pk)).finish 0x08 .ok) := by
  rw [exec_eq_complete, commandBody, (inputFits_iff s).mpr h]
  rfl

/-- Settles O19: the word is the command's, and the range check decides which outcome it is. -/
theorem pmacResult : Obligations.PmacResult := fun _ =>
  ⟨(decodeEncodeExact _ _).mpr rfl, exec_pmac_of_outOfRange, exec_pmac_of_inRange⟩

/-- Settles O20: the word is the command's, and `verify16` is equality. -/
theorem tvfyResult : Obligations.TvfyResult := by
  refine fun s => ⟨(decodeEncodeExact _ _).mpr rfl, fun heq => ?_, fun hne => ?_⟩
  · rw [exec_eq_complete, commandBody, (verify16_iff _ _).mpr heq]
    rfl
  · have hfalse : verify16 s.tag s.tref = false := Bool.eq_false_iff.mpr (mt (verify16_iff _ _).mp hne)
    rw [exec_eq_complete, commandBody, hfalse]
    rfl

end Sys2Proof.Machine
end

section
/-!
The 17-limb form of Poly1305 (43_poly1305.md rules R177, R178) computes the tag of the integer definition (rule R176).
A list of limbs is read as the number it stands for in base 256; each step of the procedure is then one equation or one
congruence modulo `P1305` between such numbers, once its sums are seen to fit in 32 bits.
-/

namespace Sys2Proof.Machine

/-! ### The number that limbs stand for -/

/-- The number with these limbs, least significant first. -/
def limbsValue (l : List Word) : Nat := Nat.ofDigits 256 (l.map BitVec.toNat)

@[simp] theorem limbsValue_nil : limbsValue [] = 0 := rfl

@[simp] theorem limbsValue_cons (w : Word) (l : List Word) : limbsValue (w :: l) = w.toNat + 256 * limbsValue l := by
  simp [limbsValue, Nat.ofDigits_cons]

theorem limbsValue_append (k l : List Word) : limbsValue (k ++ l) = limbsValue k + 256 ^ k.length * limbsValue l := by
  simp [limbsValue, Nat.ofDigits_append]

theorem limbsValue_replicate_zero (n : Nat) : limbsValue (List.replicate n 0) = 0 := by
  induction n with
  | zero => rfl
  | succ n ih => rw [List.replicate_succ, limbsValue_cons, ih]; rfl

/-- Limbs that hold bytes stand for the `le_int` of the bytes. -/
@[simp] theorem limbsValue_map_setWidth (l : List Byte) :
    limbsValue (l.map fun b : Byte => b.setWidth 32) = leInt l := by
  induction l with
  | nil => rfl
  | cons b bs ih =>
    have hb := b.isLt
    simp [leInt, ih]
    omega

@[simp] theorem limbAt_cons_zero (w : Word) (l : List Word) : limbAt (w :: l) 0 = w := rfl

@[simp] theorem limbAt_cons_succ (w : Word) (l : List Word) (i : Nat) : limbAt (w :: l) (i + 1) = limbAt l i := rfl

theorem limbAt_mem {l : List Word} {i : Nat} (h : i < l.length) : limbAt l i ∈ l := by
  rw [limbAt, List.getD_eq_getElem _ _ h]
  exact List.getElem_mem h

/-- The number as a sum over its limbs. -/
theorem limbsValue_eq_sum (l : List Word) :
    limbsValue l = ∑ i ∈ Finset.range l.length, (limbAt l i).toNat * 256 ^ i := by
  induction l with
  | nil => rfl
  | cons w l ih =>
    simp only [List.length_cons, Finset.sum_range_succ', limbAt_cons_succ, limbAt_cons_zero, limbsValue_cons, ih,
      Finset.mul_sum, pow_succ]
    rw [Nat.pow_zero, Nat.mul_one, Nat.add_comm]
    congr 1
    exact Finset.sum_congr rfl fun i _ => by ring

/-- `n` limbs, each with its value in its low eight bits. -/
def ByteLimbs (n : Nat) (l : List Word) : Prop := l.length = n ∧ ∀ w ∈ l, w.toNat < 256

theorem byteLimbs_cons {n : Nat} {w : Word} {l : List Word} :
    ByteLimbs (n + 1) (w :: l) ↔ w.toNat < 256 ∧ ByteLimbs n l := by
  simp [ByteLimbs, and_left_comm]

theorem byteLimbs_append {n m : Nat} {k l : List Word} (hk : ByteLimbs n k) (hl : ByteLimbs m l) :
    ByteLimbs (n + m) (k ++ l) := by
  refine ⟨by rw [List.length_append, hk.1, hl.1], fun w hw => ?_⟩
  rcases List.mem_append.mp hw with hw | hw
  · exact hk.2 w hw
  · exact hl.2 w hw

theorem byteLimbs_map_setWidth (l : List Byte) : ByteLimbs l.length (l.map fun b : Byte => b.setWidth 32) := by
  refine ⟨List.length_map _, fun w hw => ?_⟩
  obtain ⟨b, -, rfl⟩ := List.mem_map.mp hw
  rw [BitVec.toNat_setWidth]
  exact (Nat.mod_le _ _).trans_lt b.isLt

theorem byteLimbs_replicate_zero (n : Nat) : ByteLimbs n (List.replicate n 0) := by
  refine ⟨List.length_replicate, fun w hw => ?_⟩
  rw [List.eq_of_mem_replicate hw]
  decide

/-- Sixteen bytes and a limb 0 above them: the form that the multiplier and the mask are given in. -/
theorem byteLimbs_key (a : Bytes 16) : ByteLimbs 17 (a.toList.map (fun b : Byte => b.setWidth 32) ++ [0]) := by
  have h := byteLimbs_append (byteLimbs_map_setWidth a.toList) (byteLimbs_replicate_zero 1)
  rwa [Vector.length_toList] at h

@[simp] theorem limbsValue_key (a : Bytes 16) :
    limbsValue (a.toList.map (fun b : Byte => b.setWidth 32) ++ [0]) = leInt a.toList := by
  simp [limbsValue_append]

/-- The limbs of bytes are again the bytes. -/
theorem limbsValue_eq_leInt {n : Nat} {l : List Word} (h : ByteLimbs n l) :
    limbsValue l = leInt (l.map fun w : Word => w.setWidth 8) := by
  induction l generalizing n with
  | nil => rfl
  | cons w l ih =>
    obtain ⟨n, rfl⟩ : ∃ m, n = m + 1 := ⟨l.length, h.1.symm⟩
    obtain ⟨hw, hl⟩ := byteLimbs_cons.mp h
    simp [leInt, ih hl, Nat.mod_eq_of_lt hw]

theorem limbsValue_lt {n : Nat} {l : List Word} (h : ByteLimbs n l) : limbsValue l < 256 ^ n := by
  rw [limbsValue_eq_leInt h, ← h.1]
  simpa using leInt_lt (l.map fun w : Word => w.setWidth 8)

/-- The top limb holds what lies above the others. -/
theorem toNat_limbAt_top {n : Nat} {l : List Word} (h : ByteLimbs (n + 1) l) :
    (limbAt l n).toNat = limbsValue l / 256 ^ n := by
  induction n generalizing l with
  | zero =>
    obtain ⟨w, rfl⟩ := List.length_eq_one_iff.mp h.1
    simp
  | succ n ih =>
    obtain ⟨w, l, rfl⟩ := List.exists_cons_of_length_eq_add_one h.1
    obtain ⟨hw, hl⟩ := byteLimbs_cons.mp h
    rw [limbAt_cons_succ, ih hl, limbsValue_cons, pow_succ', ← Nat.div_div_eq_div_mul]
    congr 1
    omega

/-! ### Carries -/

/-- A mask of `k` ones and a shift by `k` cut a word at bit `k`. -/
theorem toNat_and_shiftRight (w : Word) {m : Word} {k : Nat} (hm : m.toNat = 2 ^ k - 1) :
    (w &&& m).toNat = w.toNat % 2 ^ k ∧ (w >>> k).toNat = w.toNat / 2 ^ k := by
  constructor
  · rw [BitVec.toNat_and, hm, Nat.and_two_pow_sub_one_eq_mod]
  · rw [BitVec.toNat_ushiftRight, Nat.shiftRight_eq_div_pow]

/-- Adding limb by limb with a carry adds the numbers, less the carry out of the top limb. -/
theorem addLimbs_spec {n : Nat} {u : Word} {h c : List Word} (hu : u.toNat ≤ 1) (hh : ByteLimbs n h)
    (hc : ByteLimbs n c) :
    ByteLimbs n (addLimbs u h c)
      ∧ limbsValue (addLimbs u h c) = (u.toNat + limbsValue h + limbsValue c) % 256 ^ n := by
  induction n generalizing u h c with
  | zero =>
    obtain rfl := List.length_eq_zero_iff.mp hh.1
    exact ⟨⟨rfl, by simp [addLimbs]⟩, by simp [addLimbs, Nat.mod_one]⟩
  | succ n ih =>
    obtain ⟨x, h, rfl⟩ := List.exists_cons_of_length_eq_add_one hh.1
    obtain ⟨y, c, rfl⟩ := List.exists_cons_of_length_eq_add_one hc.1
    obtain ⟨hx, hh⟩ := byteLimbs_cons.mp hh
    obtain ⟨hy, hc⟩ := byteLimbs_cons.mp hc
    have hsum : (u + x + y).toNat = u.toNat + x.toNat + y.toNat := by bv_omega
    obtain ⟨hlow, hcarry⟩ := toNat_and_shiftRight (u + x + y) (m := 255) (k := 8) rfl
    obtain ⟨hlimbs, hvalue⟩ := ih (u := (u + x + y) >>> 8) (by omega) hh hc
    rw [addLimbs]
    refine ⟨byteLimbs_cons.mpr ⟨by omega, hlimbs⟩, ?_⟩
    have hmod : (u.toNat + (x.toNat + 256 * limbsValue h) + (y.toNat + 256 * limbsValue c)) % 256
        = (u + x + y).toNat % 2 ^ 8 := by omega
    have hdiv : (u.toNat + (x.toNat + 256 * limbsValue h) + (y.toNat + 256 * limbsValue c)) / 256
        = (u + x + y).toNat / 2 ^ 8 + limbsValue h + limbsValue c := by omega
    simp only [limbsValue_cons]
    rw [pow_succ', Nat.mod_mul, hmod, hdiv, hvalue, hlow, hcarry]

/-- `add1305`, which starts with no carry (43_poly1305.md rule R177). -/
theorem addLimbs_zero_spec {n : Nat} {h c : List Word} (hh : ByteLimbs n h) (hc : ByteLimbs n c) :
    ByteLimbs n (addLimbs 0 h c) ∧ limbsValue (addLimbs 0 h c) = (limbsValue h + limbsValue c) % 256 ^ n := by
  simpa using addLimbs_spec (u := 0) (by decide) hh hc

/-- A carry pass keeps the number, the carry out standing above the limbs. -/
theorem carryLimbs_spec {b : Nat} (hb : b < 2 ^ 31) {l : List Word} {u : Word} (hu : u.toNat ≤ b)
    (hl : ∀ w ∈ l, w.toNat ≤ b) :
    ByteLimbs l.length (carryLimbs u l).2 ∧ (carryLimbs u l).1.toNat ≤ b
      ∧ limbsValue (carryLimbs u l).2 + 256 ^ l.length * (carryLimbs u l).1.toNat = u.toNat + limbsValue l := by
  induction l generalizing u with
  | nil => exact ⟨⟨rfl, by simp [carryLimbs]⟩, hu, by simp [carryLimbs]⟩
  | cons x l ih =>
    obtain ⟨hx, hl⟩ := List.forall_mem_cons.mp hl
    have hsum : (u + x).toNat = u.toNat + x.toNat := by bv_omega
    obtain ⟨hlow, hcarry⟩ := toNat_and_shiftRight (u + x) (m := 255) (k := 8) rfl
    obtain ⟨hlimbs, hout, hvalue⟩ := ih (u := (u + x) >>> 8) (by omega) hl
    refine ⟨byteLimbs_cons.mpr ⟨by omega, hlimbs⟩, hout, ?_⟩
    simp only [carryLimbs, limbsValue_cons, List.length_cons, pow_succ', hlow]
    rw [Nat.mul_assoc, Nat.add_assoc, ← Nat.mul_add, hvalue]
    omega

/-! ### The product -/

/-- A sum of words that fits in 32 bits is the sum of the numbers. -/
theorem toNat_foldl_add {n b : Nat} {f : Nat → Word} (hf : ∀ j < n, (f j).toNat ≤ b) (hb : n * b < 2 ^ 32) :
    ((List.range n).foldl (fun acc j => acc + f j) 0).toNat = ∑ j ∈ Finset.range n, (f j).toNat := by
  induction n with
  | zero => rfl
  | succ n ih =>
    have hle : ∑ j ∈ Finset.range n, (f j).toNat ≤ n * b := by
      simpa using Finset.sum_le_card_nsmul (Finset.range n) (fun j => (f j).toNat) b
        fun j hj => hf j (by have := Finset.mem_range.mp hj; omega)
    have hlast := hf n (by omega)
    rw [Nat.succ_mul] at hb
    rw [List.range_succ, List.foldl_append, List.foldl_cons, List.foldl_nil, BitVec.toNat_add,
      ih (fun j hj => hf j (by omega)) (by omega), Nat.mod_eq_of_lt (by omega), Finset.sum_range_succ]

/-- The multiplier of limb `j` of `h` in limb `i` of the product, folded back where it wraps. -/
def foldedLimb (r : List Word) (i j : Nat) : Nat :=
  if j ≤ i then (limbAt r (i - j)).toNat else 320 * (limbAt r (i + 17 - j)).toNat

section
variable {h r : List Word} (hh : ByteLimbs 17 h) (hr : ByteLimbs 17 r)
include hh hr

/-- One product of limbs, at most `255 · 320 · 255`, has no overflow. -/
theorem toNat_limb_product {i j : Nat} (hi : i < 17) (hj : j < 17) :
    (limbAt h j * (if j ≤ i then limbAt r (i - j) else 320 * limbAt r (i + 17 - j))).toNat
        = (limbAt h j).toNat * foldedLimb r i j
      ∧ (limbAt h j).toNat * foldedLimb r i j ≤ 255 * (320 * 255) := by
  have hfolded : (if j ≤ i then limbAt r (i - j) else 320 * limbAt r (i + 17 - j)).toNat = foldedLimb r i j
      ∧ foldedLimb r i j ≤ 320 * 255 := by
    rw [foldedLimb]
    split
    · have := hr.2 _ (limbAt_mem (i := i - j) (by rw [hr.1]; omega))
      exact ⟨rfl, by omega⟩
    · have := hr.2 _ (limbAt_mem (i := i + 17 - j) (by rw [hr.1]; omega))
      exact ⟨by bv_omega, by omega⟩
  have hlimb := hh.2 _ (limbAt_mem (i := j) (by rw [hh.1]; omega))
  have hle : (limbAt h j).toNat * foldedLimb r i j ≤ 255 * (320 * 255) := Nat.mul_le_mul (by omega) hfolded.2
  refine ⟨?_, hle⟩
  rw [BitVec.toNat_mul, hfolded.1, Nat.mod_eq_of_lt (by omega)]

theorem toNat_limbAt_mulLimbs {i : Nat} (hi : i < 17) :
    (limbAt (mulLimbs h r) i).toNat = ∑ j ∈ Finset.range 17, (limbAt h j).toNat * foldedLimb r i j := by
  have hat : limbAt (mulLimbs h r) i = (List.range 17).foldl (fun acc j =>
      acc + limbAt h j * (if j ≤ i then limbAt r (i - j) else 320 * limbAt r (i + 17 - j))) 0 := by
    simp [mulLimbs, limbAt, hi]
  rw [hat, toNat_foldl_add (b := 255 * (320 * 255)) (fun j hj => ?_) (by decide)]
  · exact Finset.sum_congr rfl fun j hj => (toNat_limb_product hh hr hi (Finset.mem_range.mp hj)).1
  · obtain ⟨heq, hle⟩ := toNat_limb_product hh hr hi hj
    rwa [heq]

/-- The limbs of the product fit in 29 bits. -/
theorem mulLimbs_lt : ∀ w ∈ mulLimbs h r, w.toNat < 2 ^ 29 := by
  intro w hw
  obtain ⟨i, hi, rfl⟩ := List.mem_iff_getElem.mp hw
  have hi17 : i < 17 := by simpa [mulLimbs] using hi
  have hsum := toNat_limbAt_mulLimbs hh hr hi17
  rw [limbAt, List.getD_eq_getElem _ _ hi] at hsum
  calc (mulLimbs h r)[i].toNat
      = ∑ j ∈ Finset.range 17, (limbAt h j).toNat * foldedLimb r i j := hsum
    _ ≤ 17 * (255 * (320 * 255)) := by
      simpa using Finset.sum_le_card_nsmul (Finset.range 17) _ (255 * (320 * 255))
        fun j hj => (toNat_limb_product hh hr hi17 (Finset.mem_range.mp hj)).2
    _ < 2 ^ 29 := by decide

end

/-- Limb 17 is worth 320 times limb 0 (43_poly1305.md rule R177). -/
theorem limb17_eq_320 : (256 : ZMod p1305) ^ 17 = 320 := by
  have h : ((256 ^ 17 : Nat) : ZMod p1305) = (320 : Nat) := (ZMod.natCast_eq_natCast_iff _ _ _).mpr (by decide)
  exact_mod_cast h

/-- What limb `j` of `h` is multiplied with, over all limbs of the product, is `r` shifted by `j` limbs. -/
theorem sum_foldedLimb {r : List Word} (hr : r.length = 17) {j : Nat} (hj : j < 17) :
    ∑ i ∈ Finset.range 17, (foldedLimb r i j : ZMod p1305) * 256 ^ i = limbsValue r * 256 ^ j := by
  obtain ⟨m, hm⟩ : ∃ m, 17 = j + m := ⟨17 - j, by omega⟩
  have hwrapped : ∀ i ∈ Finset.range j,
      (foldedLimb r i j : ZMod p1305) * 256 ^ i = (limbAt r (m + i)).toNat * 256 ^ (m + i) * 256 ^ j := by
    intro i hi
    have hij := Finset.mem_range.mp hi
    rw [foldedLimb, if_neg (by omega), show i + 17 - j = m + i by omega, Nat.cast_mul, Nat.cast_ofNat, ← limb17_eq_320,
      hm]
    ring
  have hdirect : ∀ k ∈ Finset.range m,
      (foldedLimb r (j + k) j : ZMod p1305) * 256 ^ (j + k) = (limbAt r k).toNat * 256 ^ k * 256 ^ j := by
    intro k _
    rw [foldedLimb, if_pos (by omega), Nat.add_sub_cancel_left]
    ring
  have hvalue : (limbsValue r : ZMod p1305)
      = ∑ k ∈ Finset.range (m + j), ((limbAt r k).toNat : ZMod p1305) * 256 ^ k := by
    rw [limbsValue_eq_sum, hr, hm, Nat.add_comm m j]
    push_cast
    rfl
  rw [hvalue, Finset.sum_mul, hm, Finset.sum_range_add, Finset.sum_range_add, Finset.sum_congr rfl hwrapped,
    Finset.sum_congr rfl hdirect, add_comm]

/-- The schoolbook product, folded back, is the product modulo `P1305`. -/
theorem limbsValue_mulLimbs {h r : List Word} (hh : ByteLimbs 17 h) (hr : ByteLimbs 17 r) :
    (limbsValue (mulLimbs h r) : ZMod p1305) = limbsValue h * limbsValue r := by
  have hlimb : ∀ i ∈ Finset.range 17, ((limbAt (mulLimbs h r) i).toNat : ZMod p1305) * 256 ^ i
      = ∑ j ∈ Finset.range 17, ((limbAt h j).toNat : ZMod p1305) * (foldedLimb r i j * 256 ^ i) := by
    intro i hi
    rw [toNat_limbAt_mulLimbs hh hr (Finset.mem_range.mp hi)]
    push_cast
    rw [Finset.sum_mul]
    exact Finset.sum_congr rfl fun j _ => by ring
  calc (limbsValue (mulLimbs h r) : ZMod p1305)
      = ∑ i ∈ Finset.range 17, ((limbAt (mulLimbs h r) i).toNat : ZMod p1305) * 256 ^ i := by
        rw [limbsValue_eq_sum, show (mulLimbs h r).length = 17 by simp [mulLimbs]]
        push_cast
        rfl
    _ = ∑ j ∈ Finset.range 17, ((limbAt h j).toNat : ZMod p1305)
          * ∑ i ∈ Finset.range 17, (foldedLimb r i j : ZMod p1305) * 256 ^ i := by
        rw [Finset.sum_congr rfl hlimb, Finset.sum_comm]
        simp only [Finset.mul_sum]
    _ = ∑ j ∈ Finset.range 17, ((limbAt h j).toNat : ZMod p1305) * 256 ^ j * limbsValue r :=
        Finset.sum_congr rfl fun j hj => by rw [sum_foldedLimb hr.1 (Finset.mem_range.mp hj)]; ring
    _ = limbsValue h * limbsValue r := by
        rw [limbsValue_eq_sum h, hh.1, ← Finset.sum_mul]
        push_cast
        rfl

/-! ### The accumulator -/

/-- What the accumulator meets between two chunks: 17 byte limbs, the top one at most 4. -/
def AccumulatorLimbs (h : List Word) : Prop := ByteLimbs 17 h ∧ limbsValue h < 5 * 256 ^ 16

/-- The second carry pass folds what stands above bit 2 of the top limb back by the factor 5, which takes a multiple of
`P1305` from the number. -/
theorem foldTop_spec {low again : List Word} (hlow : ByteLimbs 16 low) {u out : Word} (hu : u.toNat ≤ 2 ^ 30)
    (hagain : carryLimbs (5 * (u >>> 2)) low = (out, again)) :
    AccumulatorLimbs (again ++ [out + (u &&& 3)])
      ∧ limbsValue low + 256 ^ 16 * u.toNat = limbsValue (again ++ [out + (u &&& 3)]) + u.toNat / 4 * p1305 := by
  obtain ⟨hand, hshift⟩ := toNat_and_shiftRight u (m := 3) (k := 2) rfl
  have hfold : (5 * (u >>> 2)).toNat = 5 * (u.toNat / 4) := by
    rw [BitVec.toNat_mul, hshift]
    exact Nat.mod_eq_of_lt (by simp; omega)
  obtain ⟨hlimbs, -, hvalue⟩ := carryLimbs_spec (b := 2 ^ 31 - 1) (u := 5 * (u >>> 2)) (l := low) (by decide) (by omega)
    fun w hw => by have := hlow.2 w hw; omega
  simp only [hagain, hlow.1] at hlimbs hvalue
  have hlowLt := limbsValue_lt hlow
  have htop : (out + (u &&& 3)).toNat = out.toNat + u.toNat % 4 := by
    rw [BitVec.toNat_add, hand]
    exact Nat.mod_eq_of_lt (by omega)
  have htotal : limbsValue (again ++ [out + (u &&& 3)])
      = limbsValue again + 256 ^ 16 * (out.toNat + u.toNat % 4) := by
    rw [limbsValue_append, hlimbs.1, limbsValue_cons, limbsValue_nil, htop, Nat.mul_zero, Nat.add_zero]
  rw [htotal, p1305]
  exact ⟨⟨byteLimbs_append hlimbs (byteLimbs_cons.mpr ⟨by omega, byteLimbs_replicate_zero 0⟩), by omega⟩, by omega⟩

/-- The two carry passes make an accumulator of 17 limbs below `2^29`, and keep its residue. -/
theorem squeezeLimbs_spec {x : List Word} (hlen : x.length = 17) (hx : ∀ w ∈ x, w.toNat < 2 ^ 29) :
    AccumulatorLimbs (squeezeLimbs x) ∧ (limbsValue (squeezeLimbs x) : ZMod p1305) = limbsValue x := by
  obtain ⟨l, t, rfl⟩ : ∃ l t, x = l ++ [t] := ⟨_, _, (List.dropLast_concat_getLast (by rintro rfl; cases hlen)).symm⟩
  have hl : l.length = 16 := by simpa using hlen
  have htake : (l ++ [t]).take 16 = l := by rw [← hl]; simp
  have htop : limbAt (l ++ [t]) 16 = t := by rw [← hl]; simp [limbAt]
  have ht : t.toNat < 2 ^ 29 := hx t (by simp)
  obtain ⟨hlow, hout, hvalue⟩ := carryLimbs_spec (b := 2 ^ 29) (u := 0) (by decide) (by decide)
    fun w hw => (hx w (List.mem_append_left [t] hw)).le
  rw [hl] at hlow hvalue
  have hu : ((carryLimbs 0 l).1 + t).toNat = (carryLimbs 0 l).1.toNat + t.toNat := by
    rw [BitVec.toNat_add]
    exact Nat.mod_eq_of_lt (by omega)
  obtain ⟨hacc, hfold⟩ := foldTop_spec hlow (u := (carryLimbs 0 l).1 + t) (by omega) rfl
  have hx : limbsValue (l ++ [t]) = limbsValue (carryLimbs 0 l).2 + 256 ^ 16 * ((carryLimbs 0 l).1 + t).toNat := by
    rw [limbsValue_append, hl, limbsValue_cons, limbsValue_nil, hu]
    simp only [BitVec.ofNat_eq_ofNat, BitVec.toNat_ofNat, Nat.zero_mod] at hvalue ⊢
    omega
  rw [squeezeLimbs, htake, htop, hx, hfold]
  exact ⟨hacc, by simp⟩

/-! ### The chunks -/

/-- The limbs of a chunk hold its bytes and the byte 0x01 after the last one (43_poly1305.md rule R173). -/
theorem chunkLimbs_spec {chunk : List Byte} (h : chunk.length ≤ 16) :
    ByteLimbs 17 (chunkLimbs chunk) ∧ limbsValue (chunkLimbs chunk) = chunkValue chunk := by
  have hlimbs : chunkLimbs chunk
      = (chunk.map fun b : Byte => b.setWidth 32) ++ 1 :: List.replicate (16 - chunk.length) 0 := by
    obtain ⟨k, hk⟩ : ∃ k, 17 - chunk.length = k + 1 := ⟨16 - chunk.length, by omega⟩
    rw [chunkLimbs, List.take_append, List.length_map, List.take_of_length_le (by simp; omega), hk, List.take_succ_cons,
      List.take_replicate]
    congr 3
    omega
  have hpad : ByteLimbs (17 - chunk.length) (1 :: List.replicate (16 - chunk.length) 0) := by
    rw [show 17 - chunk.length = 16 - chunk.length + 1 by omega]
    exact byteLimbs_cons.mpr ⟨by decide, byteLimbs_replicate_zero _⟩
  rw [hlimbs]
  constructor
  · have := byteLimbs_append (byteLimbs_map_setWidth chunk) hpad
    rwa [Nat.add_sub_cancel' (by omega)] at this
  · rw [limbsValue_append, limbsValue_map_setWidth, List.length_map, limbsValue_cons, limbsValue_replicate_zero,
      chunkValue_eq]
    simp

/-- The chunks go into the limbs as they go into the integer, modulo `P1305`. -/
theorem accumulateLimbs_spec {r : List Word} (hr : ByteLimbs 17 r) (q : Nat) {h : List Word} {n : Nat} (msg : List Byte)
    (hh : AccumulatorLimbs h) (hn : (limbsValue h : ZMod p1305) = n) :
    AccumulatorLimbs (accumulateLimbs r q h msg)
      ∧ (limbsValue (accumulateLimbs r q h msg) : ZMod p1305) = accumulate (limbsValue r) q n msg := by
  induction q generalizing h n msg with
  | zero => exact ⟨hh, hn⟩
  | succ q ih =>
    obtain ⟨hchunk, hchunkValue⟩ := chunkLimbs_spec (List.length_take_le 16 msg)
    obtain ⟨hsum, hsumValue⟩ := addLimbs_zero_spec hh.1 hchunk
    obtain ⟨hsqueeze, hsqueezeValue⟩ := squeezeLimbs_spec (by simp [mulLimbs]) (mulLimbs_lt hsum hr)
    have hnowrap : limbsValue h + chunkValue (msg.take 16) < 256 ^ 17 := by
      have hbound := hh.2
      have hlen : 256 ^ (msg.take 16).length ≤ 256 ^ 16 := Nat.pow_le_pow_right (by decide) (List.length_take_le 16 msg)
      have hbytes := leInt_lt (msg.take 16)
      rw [chunkValue_eq]
      omega
    refine ih _ hsqueeze ?_
    rw [hsqueezeValue, limbsValue_mulLimbs hsum hr, hsumValue, hchunkValue, Nat.mod_eq_of_lt hnowrap,
      ZMod.natCast_mod]
    push_cast
    rw [hn]

/-! ### The final reduction (43_poly1305.md rule R178) -/

theorem limbsValue_minusPrimeLimbs : limbsValue minusPrimeLimbs = 256 ^ 17 - p1305 := by
  simp [minusPrimeLimbs, p1305]

theorem byteLimbs_minusPrimeLimbs : ByteLimbs 17 minusPrimeLimbs :=
  byteLimbs_cons.mpr ⟨by decide, byteLimbs_append (byteLimbs_replicate_zero 15)
    (byteLimbs_cons.mpr ⟨by decide, byteLimbs_replicate_zero 0⟩)⟩

/-- The mask of all ones selects `g`. -/
theorem zipWith_select_allOnes {h g : List Word} (hlen : h.length = g.length) :
    List.zipWith (fun hj gj => hj ^^^ (BitVec.allOnes 32 &&& (gj ^^^ hj))) h g = g := by
  have hselect (hj gj : Word) : hj ^^^ (BitVec.allOnes 32 &&& (gj ^^^ hj)) = gj := by
    rw [BitVec.allOnes_and, BitVec.xor_comm gj, ← BitVec.xor_assoc, BitVec.xor_self, BitVec.zero_xor]
  simp only [hselect]
  apply List.ext_getElem <;> simp [hlen]

/-- The mask zero selects `h`. -/
theorem zipWith_select_zero {h g : List Word} (hlen : h.length = g.length) :
    List.zipWith (fun hj gj => hj ^^^ (0#32 &&& (gj ^^^ hj))) h g = h := by
  apply List.ext_getElem <;> simp [hlen]

/-- The mask is all ones exactly when subtracting the prime leaves the top bit set, so when it went negative. -/
theorem reduceMask_eq {g : List Word} (hg : AccumulatorLimbs g) :
    0 - (limbAt (addLimbs 0 g minusPrimeLimbs) 16 >>> 7)
      = if limbsValue g < p1305 then BitVec.allOnes 32 else 0#32 := by
  obtain ⟨hbytes, hlt⟩ := hg
  obtain ⟨hh, hvalue⟩ := addLimbs_zero_spec hbytes byteLimbs_minusPrimeLimbs
  have htop : (limbAt (addLimbs 0 g minusPrimeLimbs) 16 >>> 7).toNat
      = (limbsValue g + (256 ^ 17 - p1305)) % 256 ^ 17 / 256 ^ 16 / 2 ^ 7 := by
    rw [BitVec.toNat_ushiftRight, Nat.shiftRight_eq_div_pow, toNat_limbAt_top hh, hvalue, limbsValue_minusPrimeLimbs]
  rw [p1305] at *
  split
  · have hone : limbAt (addLimbs 0 g minusPrimeLimbs) 16 >>> 7 = 1#32 :=
      BitVec.eq_of_toNat_eq (by rw [htop, BitVec.toNat_ofNat]; omega)
    rw [hone]
    rfl
  · have hzero : limbAt (addLimbs 0 g minusPrimeLimbs) 16 >>> 7 = 0#32 :=
      BitVec.eq_of_toNat_eq (by rw [htop, BitVec.toNat_ofNat]; omega)
    rw [hzero]
    rfl

/-- The final reduction gives the residue: an accumulator is below `2 · P1305`. -/
theorem reduceLimbs_spec {g : List Word} (hg : AccumulatorLimbs g) :
    ByteLimbs 17 (reduceLimbs g) ∧ limbsValue (reduceLimbs g) = limbsValue g % p1305 := by
  obtain ⟨hh, hvalue⟩ := addLimbs_zero_spec hg.1 byteLimbs_minusPrimeLimbs
  have hlen : (addLimbs 0 g minusPrimeLimbs).length = g.length := hh.1.trans hg.1.1.symm
  rw [reduceLimbs, reduceMask_eq hg]
  split
  · next hsmall =>
    rw [zipWith_select_allOnes hlen, Nat.mod_eq_of_lt hsmall]
    exact ⟨hg.1, rfl⟩
  · next hlarge =>
    have hlt := hg.2
    rw [zipWith_select_zero hlen, hvalue, limbsValue_minusPrimeLimbs]
    refine ⟨hh, ?_⟩
    rw [p1305] at *
    omega

/-! ### The tag -/

/-- The low limbs, written out as bytes, are the low bytes of the number. -/
theorem firstBytes_limbs {n m : Nat} {l : List Word} (h : ByteLimbs m l) (hn : n ≤ m) :
    firstBytes n (l.map fun w : Word => w.setWidth 8) = leBytes n (limbsValue l) := by
  have hlen : n ≤ (l.map fun w : Word => w.setWidth 8).length := by rwa [List.length_map, h.1]
  apply Vector.toList_inj.mp
  rw [toList_firstBytes _ _ hlen, toList_leBytes, limbsValue_eq_leInt h, leDigits_leInt_take hlen]

/-- Settles O43: the accumulators agree modulo `P1305`, the final reduction picks the residue, and the sixteen low limbs
of the last sum are the tag's bytes. -/
theorem limbFormComputesPoly1305 : Obligations.LimbFormComputesPoly1305 := by
  intro msg pk
  have hstart : AccumulatorLimbs (List.replicate 17 0) :=
    ⟨byteLimbs_replicate_zero 17, by rw [limbsValue_replicate_zero]; decide⟩
  obtain ⟨hacc, haccValue⟩ := accumulateLimbs_spec (byteLimbs_key (clamp (keyHalfR pk))) (chunkCount msg.length) (n := 0)
    msg hstart (by rw [limbsValue_replicate_zero])
  obtain ⟨hreduced, hreducedValue⟩ := reduceLimbs_spec hacc
  obtain ⟨htag, htagValue⟩ := addLimbs_zero_spec hreduced (byteLimbs_key (keyHalfS pk))
  rw [(ZMod.natCast_eq_natCast_iff' _ _ _).mp haccValue, Nat.mod_eq_of_lt (accumulate_lt _ _ _ (by decide)),
    limbsValue_key] at hreducedValue
  rw [hreducedValue, limbsValue_key] at htagValue
  rw [poly1305Limbs, firstBytes_limbs htag (by decide), htagValue, leBytes_mod (by decide), poly1305]
  exact (leBytes_mod (le_refl 16) _).symm

end Sys2Proof.Machine
end

section
/-!
The secretbox (44_secretbox.md): what `seal` and `open` compute on bytes, and the commands `SEAL` (rule R212) and `OPEN`
(rule R216) as their checks and one write. `open` undoes `seal` because the stream XOR inverts itself (rule R218), and
it answers the same for two boxes that agree from byte 16 on (rule R214).
-/

namespace Sys2Proof.Machine

/-! ### The XSalsa20 XOR in parts (42_xsalsa20.md rule R151) -/

section
variable (inp : List Byte) (n : Word) (nonce : Bytes 24) (key : Bytes 32) (k : Nat)

theorem take_xsalsa20Xor :
    (xsalsa20Xor (some inp) n nonce key).take k = xorBytes (inp.take k) ((xsalsa20Xor none n nonce key).take k) :=
  List.take_zipWith

theorem drop_xsalsa20Xor :
    (xsalsa20Xor (some inp) n nonce key).drop k = xorBytes (inp.drop k) ((xsalsa20Xor none n nonce key).drop k) :=
  List.drop_zipWith

@[simp] theorem xsalsa20Xor_none_length : (xsalsa20Xor none n nonce key).length = n.toNat := keystream_length ..

end

/-- The one-time key of `open` is the first 32 bytes of the whole keystream (44_secretbox.md rule R214). -/
theorem take_xsalsa20Xor_none {n : Word} (hn : 32 ≤ n.toNat) (nonce : Bytes 24) (key : Bytes 32) :
    (xsalsa20Xor none n nonce key).take 32 = xsalsa20Xor none 32 nonce key :=
  take_keystream _ _ (n := 32) hn

theorem firstBytes_take {n : Nat} {l : List Byte} (h : n ≤ l.length) : firstBytes n (l.take n) = firstBytes n l := by
  apply Vector.toList_inj.mp
  rw [toList_firstBytes _ _ h, toList_firstBytes _ _ (by simp [h]), List.take_take, min_self]

/-! ### `seal` (44_secretbox.md rule R211) -/

/-- The box that `seal` makes of the XOR result `c`: 16 zero bytes, the tag of `c[32..)` under `c[0..32)`, and
`c[32..)` (44_secretbox.md rule R211). Irreducible, so that a proof about a `DM` which holds it does not compute it. -/
@[irreducible] def sealedBox (c : List Byte) : List Byte :=
  List.replicate 16 0 ++ (poly1305 (c.drop 32) (firstBytes 32 c)).toList ++ c.drop 32

theorem secretboxSeal_eq {n : Word} (hn : 32 ≤ n.toNat) (inp : List Byte) (nonce : Bytes 24) (key : Bytes 32) :
    secretboxSeal inp n nonce key = .ok (sealedBox (xsalsa20Xor (some inp) n nonce key)) := by
  rw [sealedBox]
  exact if_neg (not_lt.mpr hn)

theorem sealedBox_length {c : List Byte} (h : 32 ≤ c.length) : (sealedBox c).length = c.length := by
  simp [sealedBox]
  omega

theorem take_sealedBox (c : List Byte) : (sealedBox c).take 16 = List.replicate 16 0 := by
  rw [sealedBox, List.append_assoc, List.take_left' (by simp)]

theorem drop_sealedBox (c : List Byte) : (sealedBox c).drop 32 = c.drop 32 := by
  rw [sealedBox, List.drop_left' (by simp)]

theorem tag_sealedBox (c : List Byte) :
    ((sealedBox c).drop 16).take 16 = (poly1305 (c.drop 32) (firstBytes 32 c)).toList := by
  rw [sealedBox, List.append_assoc, List.drop_left' (by simp), List.take_left' (by simp)]

/-! ### `open` (44_secretbox.md rules R214, R215) -/

/-- `open` of a whole box: the compare of the tags decides. -/
theorem secretboxOpen_eq {inp : List Byte} {n : Word} (hn : 32 ≤ n.toNat) (hlen : inp.length = n.toNat)
    (nonce : Bytes 24) (key : Bytes 32) :
    secretboxOpen inp n nonce key =
      if (poly1305 (inp.drop 32) (firstBytes 32 (xsalsa20Xor none 32 nonce key))).toList = (inp.drop 16).take 16 then
        .ok (List.replicate 32 0 ++ (xsalsa20Xor (some inp) n nonce key).drop 32)
      else .error .eAuth := by
  have hfield : (firstBytes 16 (inp.drop 16)).toList = (inp.drop 16).take 16 :=
    toList_firstBytes _ _ (by rw [List.length_drop]; omega)
  have hnot : ¬n.toNat < padBytes := not_lt.mpr hn
  rw [secretboxOpen, if_neg hnot]
  simp only [verify16_iff, ← Vector.toList_inj, hfield]
  rfl

/-- Bytes [0,16) take part in nothing that `open` computes (44_secretbox.md rule R214). -/
theorem secretboxOpen_congr {inp inp' : List Byte} {n : Word} (hn : 32 ≤ n.toNat) (hlen : inp.length = n.toNat)
    (hlen' : inp'.length = n.toNat) (h : inp.drop 16 = inp'.drop 16) (nonce : Bytes 24) (key : Bytes 32) :
    secretboxOpen inp n nonce key = secretboxOpen inp' n nonce key := by
  have hcipher : inp.drop 32 = inp'.drop 32 := by simpa using congrArg (List.drop 16) h
  rw [secretboxOpen_eq hn hlen, secretboxOpen_eq hn hlen', drop_xsalsa20Xor, drop_xsalsa20Xor, h, hcipher]

/-- The round trip: with zero padding `seal` and `open` take the same one-time key, and the stream XOR inverts itself
(44_secretbox.md rule R218 a). -/
theorem secretboxOpen_sealedBox {p : List Byte} {n : Word} (hn : 32 ≤ n.toNat) (hlen : p.length = n.toNat)
    (hpad : p.take 32 = List.replicate 32 0) (nonce : Bytes 24) (key : Bytes 32) :
    secretboxOpen (sealedBox (xsalsa20Xor (some p) n nonce key)) n nonce key = .ok p := by
  have hc : (xsalsa20Xor (some p) n nonce key).length = n.toNat := xsalsa20Xor_length _ _ _ _ (by simpa using hlen)
  have hkey : firstBytes 32 (xsalsa20Xor (some p) n nonce key) = firstBytes 32 (xsalsa20Xor none 32 nonce key) := by
    have hzeros := xorBytes_zeros (xsalsa20Xor none 32 nonce key)
    rw [xsalsa20Xor_none_length] at hzeros
    rw [← firstBytes_take (by omega), take_xsalsa20Xor, hpad, take_xsalsa20Xor_none hn]
    exact congrArg _ hzeros
  have hplain :
      (xsalsa20Xor (some (sealedBox (xsalsa20Xor (some p) n nonce key))) n nonce key).drop 32 = p.drop 32 := by
    rw [drop_xsalsa20Xor, drop_sealedBox, drop_xsalsa20Xor]
    exact xorBytes_twice _ _ (by simp [hlen])
  have hbox : (sealedBox (xsalsa20Xor (some p) n nonce key)).length = n.toNat := by
    rw [sealedBox_length (by omega), hc]
  rw [secretboxOpen_eq hn hbox, drop_sealedBox, tag_sealedBox, hkey, if_pos rfl, hplain, ← hpad,
    List.take_append_drop]

/-! ### The checks, in the terms of the statements (44_secretbox.md rules R212, R216) -/

section
variable {i : Instr} {s : State}

theorem boxChecks_of_short (hlen : s.len.toNat < 32) : s.boxChecks = .error .eShort := by
  rw [boxChecks_eq, if_pos (decide_eq_true hlen)]

section
variable (hreads : readsView i = true) (hwrites : writesView i = true) (hlen : 32 ≤ s.len.toNat)
include hreads hwrites

theorem viewOutOfRange_box_iff : viewOutOfRange i s ↔ (!s.inputFits || !s.outputFits) = true := by
  rw [Bool.or_eq_true]
  exact viewOutOfRange_iff (ni := false) hreads hwrites

include hlen

theorem boxChecks_of_outOfRange (hrange : viewOutOfRange i s) : s.boxChecks = .error .eRange := by
  rw [boxChecks_eq, if_neg (by simpa using hlen), if_pos ((viewOutOfRange_box_iff hreads hwrites).mp hrange)]

theorem boxChecks_of_inRange (hrange : ¬viewOutOfRange i s) :
    s.boxChecks = if s.viewsClash then .error .eOvlp else .ok () := by
  rw [boxChecks_eq, if_neg (by simpa using hlen), if_neg (mt (viewOutOfRange_box_iff hreads hwrites).mpr hrange)]

theorem boxChecks_of_overlap (hrange : ¬viewOutOfRange i s) (hclash : viewsOverlapPartly s) :
    s.boxChecks = .error .eOvlp := by
  rw [boxChecks_of_inRange hreads hwrites hlen hrange, if_pos ((viewsClash_iff s).mpr hclash)]

theorem boxChecks_of_passed (hrange : ¬viewOutOfRange i s) (hclash : ¬viewsOverlapPartly s) :
    s.boxChecks = .ok () := by
  rw [boxChecks_of_inRange hreads hwrites hlen hrange, if_neg (mt (viewsClash_iff s).mp hclash)]

end

/-- A command that starts with the checks ends with the code that they raise. -/
theorem exec_of_boxChecks_error {f : Unit → Except Code State} {c : Code}
    (hbody : commandBody i s = s.boxChecks >>= f) (hchecks : s.boxChecks = .error c) :
    exec i s = .next (s.finish i.opcode c) := by
  rw [exec_eq_complete, hbody, hchecks, error_bind, complete_error]

end

/-! ### What is written to the output view -/

theorem finish_writeOutput (s : State) (out : List Byte) (op : Byte) (code : Code) :
    (s.writeOutput out).finish op code =
      { s with dm := s.dm.writeBytes s.dst.toNat out, status := completedStatus s.status code op } := rfl

/-- The output view reads as what was written to it (20_memory.md rules R54, R57). -/
theorem readBytes_writeOutput {s : State} {out : List Byte} (h : out.length = s.len.toNat) :
    (s.writeOutput out).dm.readBytes s.dst.toNat s.len.toNat = out := by
  rw [← h]
  exact readBytes_writeBytes_same _ _ _

/-! ### `SEAL` (44_secretbox.md rule R212) -/

/-- The output view takes the box of the input view. -/
def State.writeSealed (s : State) : State :=
  s.writeOutput (sealedBox (xsalsa20Xor (some s.inputView) s.len s.nonce s.key))

theorem exec_seal_of_passed {s : State} (hchecks : s.boxChecks = .ok ()) :
    exec .sealBox s = .next (s.writeSealed.finish 0x0A .ok) := by
  obtain ⟨hlen, -⟩ := boxChecks_ok hchecks
  rw [exec_eq_complete, commandBody, hchecks, ok_bind, secretboxSeal_eq hlen]
  rfl

/-- Settles O21: the word is the command's, and each clause decides what the checks answer. -/
theorem sealResult : Obligations.SealResult := by
  refine fun s => ⟨(decodeEncodeExact _ _).mpr rfl,
    fun hlen => exec_of_boxChecks_error rfl (boxChecks_of_short hlen),
    fun hlen hrange => exec_of_boxChecks_error rfl (boxChecks_of_outOfRange rfl rfl hlen hrange),
    fun hlen hrange hclash => exec_of_boxChecks_error rfl (boxChecks_of_overlap rfl rfl hlen hrange hclash),
    fun hlen hrange hclash => ?_⟩
  rw [exec_seal_of_passed (boxChecks_of_passed rfl rfl hlen hrange hclash), State.writeSealed, finish_writeOutput,
    sealedBox]
  rfl

/-- A `SEAL` that reports `OK` has passed the checks and written the box. -/
theorem exec_seal_ok {s t : State} (h : exec .sealBox s = .next t) (hok : statusCode t.status = Code.ok.bits) :
    s.boxChecks = .ok () ∧ t = s.writeSealed.finish 0x0A .ok := by
  obtain ⟨u, hbody, -⟩ := commandBody_of_exec_ok h hok
  obtain ⟨_, hchecks, -⟩ := bind_eq_ok hbody
  cases (exec_seal_of_passed hchecks).symm.trans h
  exact ⟨hchecks, rfl⟩

theorem xsalsa20Xor_inputView_length (s : State) :
    (xsalsa20Xor (some s.inputView) s.len s.nonce s.key).length = s.len.toNat :=
  xsalsa20Xor_length _ _ _ _ (by simp)

theorem readBytes_writeSealed {s : State} (hlen : 32 ≤ s.len.toNat) :
    s.writeSealed.dm.readBytes s.dst.toNat s.len.toNat
      = sealedBox (xsalsa20Xor (some s.inputView) s.len s.nonce s.key) := by
  have hc := xsalsa20Xor_inputView_length s
  exact readBytes_writeOutput (by rw [sealedBox_length (by omega), hc])

/-- Settles O45: the output view holds the box, whose parts the lemmas about `sealedBox` name. -/
theorem sealOutputLayout : Obligations.SealOutputLayout := by
  intro s t h hok inp ks out
  obtain ⟨hchecks, rfl⟩ := exec_seal_ok h hok
  obtain ⟨hlen, -⟩ := boxChecks_ok hchecks
  have hout : out = sealedBox (List.zipWith (· ^^^ ·) inp ks) := readBytes_writeSealed hlen
  have hkey : 32 ≤ (List.zipWith (· ^^^ ·) inp ks).length := by
    rw [← xsalsa20Xor_inputView_length s] at hlen
    exact hlen
  rw [hout, take_sealedBox, drop_sealedBox, tag_sealedBox, firstBytes_take hkey]
  exact ⟨hlen, rfl, rfl, rfl, fun _ => exec_dm_outside h⟩

/-! ### `OPEN` (44_secretbox.md rule R216) -/

/-- The bytes that `OPEN` gives its output view, or the code that its checks or `open` raise. -/
def State.openedView (s : State) : Except Code (List Byte) :=
  s.boxChecks >>= fun _ => secretboxOpen s.inputView s.len s.nonce s.key

theorem commandBody_openBox (s : State) :
    commandBody .openBox s = s.openedView >>= fun out => .ok (s.writeOutput out) := by
  rw [commandBody, State.openedView]
  cases s.boxChecks <;> rfl

theorem exec_openBox (s : State) :
    exec .openBox s = complete 0x0B s (s.openedView >>= fun out => .ok (s.writeOutput out)) := by
  rw [exec_eq_complete, commandBody_openBox]
  rfl

theorem openedView_of_passed {s : State} (hchecks : s.boxChecks = .ok ()) :
    s.openedView = secretboxOpen s.inputView s.len s.nonce s.key := by
  rw [State.openedView, hchecks, ok_bind]

theorem exec_open_of_mismatch {s : State} (hchecks : s.boxChecks = .ok ()) (htag : tagMismatch .openBox s) :
    exec .openBox s = .next (s.finish 0x0B .eAuth) := by
  obtain ⟨hlen, -⟩ := boxChecks_ok hchecks
  rw [exec_openBox, openedView_of_passed hchecks, secretboxOpen_eq hlen (inputView_length s), if_neg htag]
  rfl

theorem exec_open_of_match {s : State} (hchecks : s.boxChecks = .ok ()) (htag : ¬tagMismatch .openBox s) :
    exec .openBox s = .next
      ((s.writeOutput
        (List.replicate 32 0 ++ (xsalsa20Xor (some s.inputView) s.len s.nonce s.key).drop 32)).finish 0x0B .ok) := by
  obtain ⟨hlen, -⟩ := boxChecks_ok hchecks
  rw [exec_openBox, openedView_of_passed hchecks, secretboxOpen_eq hlen (inputView_length s), if_pos (not_not.mp htag)]
  rfl

/-- Settles O22: the word is the command's, and each clause decides what the checks and the compare answer. -/
theorem openResult : Obligations.OpenResult := by
  refine fun s => ⟨(decodeEncodeExact _ _).mpr rfl,
    fun hlen => exec_of_boxChecks_error rfl (boxChecks_of_short hlen),
    fun hlen hrange => exec_of_boxChecks_error rfl (boxChecks_of_outOfRange rfl rfl hlen hrange),
    fun hlen hrange hclash => exec_of_boxChecks_error rfl (boxChecks_of_overlap rfl rfl hlen hrange hclash),
    fun hlen hrange hclash => exec_open_of_mismatch (boxChecks_of_passed rfl rfl hlen hrange hclash),
    fun hlen hrange hclash htag => ?_⟩
  rw [exec_open_of_match (boxChecks_of_passed rfl rfl hlen hrange hclash) htag, finish_writeOutput]
  rfl

/-! ### `SEAL` then `OPEN` (44_secretbox.md rule R218) -/

/-- Views that are the same or disjoint do not overlap partly (20_memory.md rule R56). -/
theorem not_viewsOverlapPartly {s : State}
    (h : s.dst = s.src ∨ s.dst.toNat + s.len.toNat ≤ s.src.toNat ∨ s.src.toNat + s.len.toNat ≤ s.dst.toNat) :
    ¬viewsOverlapPartly s := by
  rintro ⟨-, hne, hsrc, hdst⟩
  obtain heq | hbelow | habove := h
  · exact hne heq.symm
  · omega
  · omega

/-- Settles O46: `OPEN` passes its checks, its input view is the box that `SEAL` has left, and `open` undoes `seal`. -/
theorem sealThenOpenRestores : Obligations.SealThenOpenRestores := by
  intro s t dst hpad h hok hfits hplace
  obtain ⟨hchecks, rfl⟩ := exec_seal_ok h hok
  obtain ⟨hlen, -, hout, -⟩ := boxChecks_ok hchecks
  let r : State := { s.writeSealed.finish 0x0A .ok with src := s.dst, dst := dst }
  have hsize : r.dm.size = s.dm.size := writeBytes_size ..
  have hrange : ¬viewOutOfRange .openBox r := by
    rintro (⟨-, hin⟩ | ⟨-, hin⟩) <;> rw [hsize] at hin
    · exact absurd ((outputFits_iff s).mp hout) (not_le.mpr hin)
    · exact absurd hfits (not_le.mpr hin)
  have hpassed : r.boxChecks = .ok () :=
    boxChecks_of_passed (i := .openBox) rfl rfl hlen hrange (not_viewsOverlapPartly hplace)
  have hopen : secretboxOpen r.inputView r.len r.nonce r.key = .ok s.inputView :=
    (congrArg (secretboxOpen · s.len s.nonce s.key) (readBytes_writeSealed hlen)).trans
      (secretboxOpen_sealedBox hlen (inputView_length s) hpad s.nonce s.key)
  refine ⟨(r.writeOutput s.inputView).finish 0x0B .ok, ?_, completedStatus_code ..,
    readBytes_writeOutput (s := r) (inputView_length s)⟩
  change exec .openBox r = _
  rw [exec_openBox, openedView_of_passed hpassed, hopen]
  rfl

/-! ### The reserved region of a box (44_secretbox.md rule R214) -/

theorem drop_readBytes (m : Memory) (a n k : Nat) : (m.readBytes a n).drop k = m.readBytes (a + k) (n - k) := by
  apply List.ext_getElem
  · simp
  · intro i _ _
    simp [readBytes_getElem, Nat.add_assoc]

/-- A write of the first 16 bytes of the input view leaves the rest of it. -/
theorem drop_inputView_memWrite (s : State) {z : List Byte} (hz : z.length = 16) :
    (s.memWrite s.src.toNat z).inputView.drop 16 = s.inputView.drop 16 := by
  rw [State.inputView, State.inputView, drop_readBytes, drop_readBytes]
  exact readBytes_writeBytes_disjoint _ _ _ _ _ (by rw [hz]; exact .inr (le_refl _))

/-- The checks look at where the views lie and at the size of `DM`, not at its bytes. -/
theorem boxChecks_congr_of_views {s t : State} (hsrc : s.src = t.src) (hdst : s.dst = t.dst) (hlen : s.len = t.len)
    (hsize : s.dm.size = t.dm.size) : s.boxChecks = t.boxChecks := by
  rw [boxChecks_eq, boxChecks_eq, inputFits_congr hsrc hlen hsize, outputFits_congr hdst hlen hsize,
    viewsClash_congr hsrc hdst hlen, hlen]

/-- What the output view gets depends on the size of `DM` and on the input view from byte 16 on. -/
theorem openedView_memWrite {s : State} {z : List Byte} (hz : z.length = 16) (hlen : 32 ≤ s.len.toNat) :
    (s.memWrite s.src.toNat z).openedView = s.openedView := by
  have hopen := secretboxOpen_congr hlen (inputView_length (s.memWrite s.src.toNat z)) (inputView_length s)
    (drop_inputView_memWrite s hz) s.nonce s.key
  have hchecks : (s.memWrite s.src.toNat z).boxChecks = s.boxChecks :=
    boxChecks_congr_of_views (s := s.memWrite s.src.toNat z) (t := s) rfl rfl rfl (writeBytes_size ..)
  rw [State.openedView, memWrite_len, memWrite_nonce, memWrite_key, hopen, hchecks, State.openedView]

theorem openedView_length {s : State} {out : List Byte} (h : s.openedView = .ok out) : out.length = s.len.toNat := by
  obtain ⟨_, -, hopen⟩ := bind_eq_ok h
  exact secretboxOpen_length (inputView_length s) hopen

theorem openedView_error_ne_ok {s : State} {c : Code} (h : s.openedView = .error c) : c ≠ .ok :=
  commandBody_error_ne_ok (i := .openBox) (s := s) (by rw [commandBody_openBox, h, error_bind])

/-- Settles O47: both runs raise one code or write one output. -/
theorem openIgnoresReservedRegion : Obligations.OpenIgnoresReservedRegion := by
  intro s t t' z hz hlen h h'
  change exec .openBox (s.memWrite s.src.toNat z) = _ at h'
  rw [exec_openBox] at h
  rw [exec_openBox, openedView_memWrite hz hlen] at h'
  cases hout : s.openedView with
  | ok out =>
    have hlen' : out.length = s.len.toNat := openedView_length hout
    rw [hout] at h h'
    cases h
    cases h'
    exact ⟨rfl, fun _ => sameOutputView_writeOutput (s := s.memWrite s.src.toNat z) (t := s) rfl hlen'⟩
  | error c =>
    rw [hout] at h h'
    cases h
    cases h'
    refine ⟨rfl, fun hok => ?_⟩
    rw [finish_status, completedStatus_code] at hok
    exact absurd (code_bits_injective hok) (openedView_error_ne_ok hout)

end Sys2Proof.Machine
end

section
/-!
Failure and completion (60_exceptions.md rules R247 to R249): the fixed order of the failures has exactly one first
failure, the body of every command ends with it, and the write of a command word is then one completion with its code.
-/

namespace Sys2Proof.Machine

/-! ### The fixed order (60_exceptions.md rule R247) -/

open Classical in
/-- The first failure in the fixed order, check by check. -/
noncomputable def firstFailureCode (i : Instr) (s : State) : Code :=
  if hasLeastLength i = true ∧ s.len.toNat < 32 then .eShort
  else if viewOutOfRange i s then .eRange
  else if readsView i = true ∧ writesView i = true ∧ viewsOverlapPartly s then .eOvlp
  else if tagMismatch i s then .eAuth
  else .ok

theorem eq_firstFailureCode {i : Instr} {s : State} {code : Code} (h : firstFailure i s code) :
    code = firstFailureCode i s := by
  cases code with
  | eShort => exact (if_pos h).symm
  | eRange =>
    obtain ⟨hshort, hrange⟩ := h
    rw [firstFailureCode, if_neg hshort, if_pos hrange]
  | eOvlp =>
    obtain ⟨hshort, hrange, hoverlap⟩ := h
    rw [firstFailureCode, if_neg hshort, if_neg hrange, if_pos hoverlap]
  | eAuth =>
    obtain ⟨hshort, hrange, hoverlap, htag⟩ := h
    rw [firstFailureCode, if_neg hshort, if_neg hrange, if_neg hoverlap, if_pos htag]
  | ok =>
    obtain ⟨hshort, hrange, hoverlap, htag⟩ := h
    rw [firstFailureCode, if_neg hshort, if_neg hrange, if_neg hoverlap, if_neg htag]
  | eIllcmd => cases h

section
variable {cw : Word} {s : State} {code : Code}

theorem wordResult_of_reject {e : Reject} (h : decode cw = .error e) : wordResult cw s code ↔ code = .eIllcmd := by
  simp only [wordResult, h]

theorem wordResult_of_decode {i : Instr} (h : decode cw = .ok i) : wordResult cw s code ↔ firstFailure i s code := by
  simp only [wordResult, h]

/-- A word has at most one result. -/
theorem wordResult_unique {code' : Code} (h : wordResult cw s code) (h' : wordResult cw s code') : code = code' := by
  cases hdecode : decode cw with
  | error e =>
    rw [wordResult_of_reject hdecode] at h h'
    exact h.trans h'.symm
  | ok i =>
    rw [wordResult_of_decode hdecode] at h h'
    exact (eq_firstFailureCode h).trans (eq_firstFailureCode h').symm

/-- The result of a word depends neither on `STATUS` nor on the host's script and its latest reply. -/
theorem wordResult_bookkeeping (status : Word) (script : List HostAccess) (reply : Reply) :
    wordResult cw { s with status := status, script := script, reply := reply } code ↔ wordResult cw s code := by
  cases hdecode : decode cw with
  | error e => rw [wordResult_of_reject hdecode, wordResult_of_reject hdecode]
  | ok i =>
    rw [wordResult_of_decode hdecode, wordResult_of_decode hdecode]
    cases i <;> rfl

end

/-! ### The body of every command ends with its first failure -/

/-- The code with which a command completes when its body answers so (60_exceptions.md rule R248). -/
def answerCode : Except Code State → Code
  | .ok _ => .ok
  | .error c => c

section
variable {i : Instr} {s : State}

/-- A command that starts with the checks of the stream commands, and then succeeds. -/
theorem firstFailure_of_streamChecks {ni : Bool} {f : Unit → State}
    (hbody : commandBody i s = s.streamChecks ni >>= fun a => .ok (f a)) (hreads : readsView i = !ni)
    (hwrites : writesView i = true) (hleast : hasLeastLength i = false) (htag : ¬tagMismatch i s) :
    firstFailure i s (answerCode (commandBody i s)) := by
  have hshort : ¬(hasLeastLength i = true ∧ s.len.toNat < 32) := by simp [hleast]
  have hoverlap : readsView i = true ∧ writesView i = true ∧ viewsOverlapPartly s ↔ (!ni && s.viewsClash) = true := by
    rw [← viewsOverlapPartly_iff, hreads, hwrites]
    simp
  by_cases hrange : viewOutOfRange i s
  · rw [hbody, streamChecks_of_outOfRange hreads hwrites hrange]
    exact ⟨hshort, hrange⟩
  · rw [hbody, streamChecks_of_inRange hreads hwrites hrange]
    split_ifs with hclash
    · exact ⟨hshort, hrange, hoverlap.mpr hclash⟩
    · exact ⟨hshort, hrange, mt hoverlap.mp hclash, htag⟩

/-- A command that starts with the checks of `SEAL` and `OPEN`, and whose rest then fails exactly on its tag compare. -/
theorem firstFailure_of_boxChecks {f : Unit → Except Code State} (hbody : commandBody i s = s.boxChecks >>= f)
    (hreads : readsView i = true) (hwrites : writesView i = true) (hleast : hasLeastLength i = true)
    (hrest : s.boxChecks = .ok () →
      tagMismatch i s ∧ answerCode (f ()) = .eAuth ∨ ¬tagMismatch i s ∧ answerCode (f ()) = .ok) :
    firstFailure i s (answerCode (commandBody i s)) := by
  by_cases hlen : s.len.toNat < 32
  · rw [hbody, boxChecks_of_short hlen]
    exact ⟨hleast, hlen⟩
  have hshort : ¬(hasLeastLength i = true ∧ s.len.toNat < 32) := fun h => hlen h.right
  rw [not_lt] at hlen
  by_cases hrange : viewOutOfRange i s
  · rw [hbody, boxChecks_of_outOfRange hreads hwrites hlen hrange]
    exact ⟨hshort, hrange⟩
  by_cases hclash : viewsOverlapPartly s
  · rw [hbody, boxChecks_of_overlap hreads hwrites hlen hrange hclash]
    exact ⟨hshort, hrange, hreads, hwrites, hclash⟩
  have hoverlap : ¬(readsView i = true ∧ writesView i = true ∧ viewsOverlapPartly s) := fun h => hclash h.right.right
  have hpassed := boxChecks_of_passed hreads hwrites hlen hrange hclash
  rw [hbody, hpassed, ok_bind]
  obtain ⟨htag, hcode⟩ | ⟨htag, hcode⟩ := hrest hpassed
  · rw [hcode]
    exact ⟨hshort, hrange, hoverlap, htag⟩
  · rw [hcode]
    exact ⟨hshort, hrange, hoverlap, htag⟩

end

theorem commandBody_firstFailure (i : Instr) (s : State) : firstFailure i s (answerCode (commandBody i s)) := by
  cases i
  case scinit | scperm | ksblk | xsubkey | pclamp =>
    simp [firstFailure, commandBody, answerCode, hasLeastLength, viewOutOfRange, readsView, writesView, tagMismatch]
  case sxor ks ni => exact firstFailure_of_streamChecks (commandBody_sxor ks ni s) rfl rfl rfl id
  case xsxor ni => exact firstFailure_of_streamChecks (commandBody_xsxor ni s) rfl rfl rfl id
  case pmac =>
    rw [commandBody, raiseIf_bind]
    have hrange : viewOutOfRange .pmac s ↔ (!s.inputFits) = true := by
      simp [viewOutOfRange, readsView, writesView, State.inputFits, dmSpanOk_eq_false_iff]
    split_ifs with hfits <;>
      simp [firstFailure, answerCode, hasLeastLength, readsView, writesView, tagMismatch, hrange, hfits]
  case tvfy =>
    rw [commandBody, raiseIf_bind]
    have htag : tagMismatch .tvfy s ↔ (!verify16 s.tag s.tref) = true := by
      rw [Bool.not_eq_true', ← Bool.not_eq_true, verify16_iff]
      rfl
    split_ifs with hverify <;>
      simp [firstFailure, answerCode, hasLeastLength, viewOutOfRange, readsView, writesView, htag, hverify]
  case sealBox =>
    refine firstFailure_of_boxChecks rfl rfl rfl rfl fun hpassed => .inr ⟨id, ?_⟩
    obtain ⟨hlen, -⟩ := boxChecks_ok hpassed
    rw [secretboxSeal_eq hlen]
    rfl
  case openBox =>
    refine firstFailure_of_boxChecks rfl rfl rfl rfl fun hpassed => ?_
    obtain ⟨hlen, -⟩ := boxChecks_ok hpassed
    rw [secretboxOpen_eq hlen (inputView_length s)]
    split_ifs with heq
    · exact .inr ⟨not_not.mpr heq, rfl⟩
    · exact .inl ⟨heq, rfl⟩

/-! ### The completion of a command word (60_exceptions.md rule R248) -/

theorem writtenFrom_status {i : Instr} {s u : State} (h : writtenFrom i s u) : u.status = s.status := by
  cases i
  case tvfy => exact congrArg State.status h
  case scinit | scperm | ksblk | xsubkey | sxor | xsxor | sealBox | openBox =>
    obtain ⟨_, rfl⟩ := h
    rfl
  case pclamp =>
    obtain ⟨_, _, rfl⟩ := h
    rfl
  case pmac =>
    obtain ⟨_, _, _, rfl⟩ := h
    rfl

/-- Everything a command word can answer: the completion with the code of its result, which is of the state before if
the code is not `OK`. -/
theorem runCommand_cases {cw : Word} {s t : State} (h : runCommand cw s = .next t) :
    ∃ u code, wordResult cw s code ∧ t = u.finish (cwOp cw) code ∧ u.status = s.status ∧ (code ≠ .ok → u = s) := by
  cases hdecode : decode cw with
  | error e =>
    rw [runCommand_of_reject hdecode] at h
    cases h
    exact ⟨s, .eIllcmd, (wordResult_of_reject hdecode).mpr rfl, rfl, rfl, fun _ => rfl⟩
  | ok i =>
    obtain ⟨-, hop, -, -⟩ := (decode_eq_ok_iff_fields cw i).mp hdecode
    have hresult := (wordResult_of_decode hdecode).mpr (commandBody_firstFailure i s)
    rw [runCommand_of_decode hdecode] at h
    obtain ⟨u, hbody, rfl⟩ | ⟨c, hbody, rfl⟩ := exec_cases h
    · rw [hbody] at hresult
      exact ⟨u, .ok, hresult, by rw [hop], writtenFrom_status (commandBody_writtenFrom hbody), fun hne => absurd rfl hne⟩
    · rw [hbody] at hresult
      exact ⟨s, c, hresult, by rw [hop], rfl, fun _ => rfl⟩

/-- Settles O10: the word completes with its result, and it has one result only. -/
theorem firstFailureIsReported : Obligations.FirstFailureIsReported := by
  intro cw s t h code
  obtain ⟨u, c, hresult, rfl, -, -⟩ := runCommand_cases h
  rw [finish_status, completedStatus_code]
  constructor
  · intro hbits
    rwa [← code_bits_injective hbits]
  · intro hcode
    rw [wordResult_unique hresult hcode]

/-- Settles O11: every word completes in every state, and a failure leaves all that its result depends on. -/
theorem repeatedFailureGivesSameCode : Obligations.RepeatedFailureGivesSameCode := by
  intro cw s t h
  refine ⟨fun cw' => runCommand_is_next cw' t, fun hfail => ?_⟩
  obtain ⟨u, code, hresult, rfl, -, hframe⟩ := runCommand_cases h
  rw [finish_status, completedStatus_code] at hfail
  obtain rfl := hframe fun hok => hfail (congrArg Code.bits hok)
  obtain ⟨v, hv⟩ := runCommand_is_next cw (u.finish (cwOp cw) code)
  have hagain : wordResult cw (u.finish (cwOp cw) code) code := (wordResult_bookkeeping _ _ _).mpr hresult
  refine ⟨v, hv, ?_⟩
  rw [(firstFailureIsReported cw _ v hv code).mpr hagain, finish_status, completedStatus_code]

/-! ### `ERRS` is sticky (60_exceptions.md rule R248) -/

@[simp] theorem writeReg_status (s : State) (v : Word) (p : RegWord) : (s.writeReg v p).status = s.status := by
  cases p <;> rfl

theorem runCommand_keeps_errs {cw : Word} {s t : State} (h : runCommand cw s = .next t)
    (hs : statusErrs s.status = true) : statusErrs t.status = true := by
  obtain ⟨u, code, -, rfl, hstatus, -⟩ := runCommand_cases h
  rw [finish_status, completedStatus_errs, hstatus, hs, Bool.true_or]

/-- Every access of the host but the reset input keeps `ERRS` set. -/
theorem perform_keeps_errs {a : HostAccess} {s t : State} (h : perform a s = .next t) (hreset : a ≠ .assertReset)
    (hs : statusErrs s.status = true) : statusErrs t.status = true := by
  cases a <;> simp only [perform] at h
  case regWrite off v =>
    split at h
    · by_cases hcmd : regAt off = .cmd
      · rw [acceptRegWrite_cmd hcmd] at h
        exact runCommand_keeps_errs h hs
      · rw [acceptRegWrite_data hcmd] at h
        cases h
        rwa [writeReg_status]
    · cases h
  case regRead | memWrite | memRead =>
    split at h <;> cases h
    exact hs
  case assertReset => exact absurd rfl hreset

/-- Settles O9: the write of a word to `CMD` is its completion, and no access but reset clears `ERRS`. -/
theorem completionBookkeeping : Obligations.CompletionBookkeeping := by
  refine ⟨fun s cw rest hscript => ?_, fun s t h hs hreset => ?_⟩
  · rw [step_regWrite_cmd hscript]
    obtain ⟨t, ht⟩ := runCommand_is_next cw (s.takeAccess rest)
    obtain ⟨u, code, hresult, rfl, hstatus, hframe⟩ := runCommand_cases ht
    refine ⟨_, code, ht, (wordResult_bookkeeping _ _ _).mp hresult, completedStatus_code .., completedStatus_done ..,
      ?_, completedStatus_lastop .., completedStatus_lowReserved .., completedStatus_highReserved .., fun hfail => ?_⟩
    · rw [finish_status, completedStatus_errs, hstatus, takeAccess_status]
    · rw [hframe hfail]
      rfl
  · cases hscript : s.script with
    | nil =>
      rw [step_of_script_nil hscript] at h
      cases h
      exact hs
    | cons a rest =>
      rw [step_of_script_cons hscript] at h
      have hne : a ≠ .assertReset := by
        rintro rfl
        exact hreset rest hscript
      exact perform_keeps_errs h hne hs

end Sys2Proof.Machine
end

section
/-!
Reset (70_reset_and_hazards.md rules R270 to R272): the state that reset leaves, and the step that asserts the reset
input.
-/

namespace Sys2Proof.Machine

/-! ### The fields of `STATUS` at reset (70_reset_and_hazards.md rule R271) -/

theorem statusCode_zero : statusCode 0 = Code.ok.bits := by decide

theorem statusDone_zero : statusDone 0 = false := by decide

theorem statusErrs_zero : statusErrs 0 = false := by decide

theorem statusLastop_zero : statusLastop 0 = 0 := by decide

/-- Settles O1: `State.resetWith` gives each register its zero, so `STATUS` is the word whose fields all read 0. -/
theorem resetStateIsAllZero : Obligations.ResetStateIsAllZero := by
  refine ⟨fun dm script => ?_, rfl⟩
  exact ⟨rfl, rfl, rfl, rfl, rfl, rfl, rfl, rfl, rfl, rfl, rfl, rfl, rfl, rfl, rfl, rfl,
    statusCode_zero, statusDone_zero, statusErrs_zero, statusLastop_zero⟩

/-! ### The reset input (70_reset_and_hazards.md rule R270) -/

/-- Of the state before, reset keeps `DM` alone; the host goes on with the rest of its script. -/
theorem resetRegs_takeAccess (s : State) (rest : List HostAccess) :
    (s.takeAccess rest).resetRegs = State.resetWith s.dm rest := rfl

theorem step_assertReset {s : State} {rest : List HostAccess} (hscript : s.script = .assertReset :: rest) :
    step s = .next (State.resetWith s.dm rest) := by
  rw [step_of_script_cons hscript, perform, resetRegs_takeAccess]

/-- Settles O2: the step leaves the block just reset beside the same `DM`. -/
theorem resetInputZeroesRegistersKeepsDm : Obligations.ResetInputZeroesRegistersKeepsDm :=
  fun _ _ hscript => step_assertReset hscript

end Sys2Proof.Machine
end
